-- ==== Sys2Proof/Word.lean ====
section
/-! DEFINITION. The engine's units of data: bytes, 32-bit words, frames (00_scope.md R5, R10; 30_encoding.md R70). -/

namespace Sys2Proof

/-- A byte, `0..255`; bit 7 is its most significant (R10). -/
abbrev Byte := BitVec 8

/-- A word, unsigned, 32 bits; bit 31 is its most significant (R10, R21). -/
abbrev Word := BitVec 32

/-- A frame: a finite byte sequence, possibly empty, delivered whole; the head is the first byte sent (R70). -/
abbrev Frame := List Byte

end Sys2Proof
end

