-- ==== Sys2Proof/Syntax.lean ====
section
/-! DEFINITION. The complete command set: one constructor per row of spec/opcode_table.json (30_encoding.md R81). -/

namespace Sys2Proof

/-- A command of the engine. Only PAD has an operand, its message (R79). -/
inductive Instr where
  /-- KGEN, `0x01`: generate the round-constant table (R99). -/
  | kgen
  /-- PAD, `0x02`: pad a message and load it as blocks (R120). -/
  | pad (msg : List Byte)
  /-- HINIT, `0x03`: set the hash state to the initial value (R139). -/
  | hinit
  /-- COMPRESS, `0x04`: process block `BP` (R140). -/
  | compress
  /-- UNPACK, `0x05`: return the hash state as bytes (R122). -/
  | unpack
  /-- STATUS, `0x06`: read the status word (R160). -/
  | status
  /-- RESET, `0x07`: return the engine to its reset state (R161). -/
  | reset
  deriving DecidableEq, Repr

/-- The two command frame formats of R71. -/
inductive Format where
  /-- Exactly one byte, the opcode. -/
  | N
  /-- The opcode and then the message. -/
  | P
  deriving DecidableEq, Repr

/-- The response payload formats of R72, by payload length. -/
inductive RespFormat where
  /-- No payload. -/
  | R0
  /-- The status word, 4 bytes. -/
  | R4
  /-- The digest, 32 bytes. -/
  | R32
  deriving DecidableEq, Repr

/-- The length of a response payload (R72). -/
def RespFormat.payloadBytes : RespFormat → Nat
  | .R0 => 0
  | .R4 => 4
  | .R32 => 32

/-- The format column of R81. -/
def Instr.format : Instr → Format
  | .kgen => .N
  | .pad _ => .P
  | .hinit => .N
  | .compress => .N
  | .unpack => .N
  | .status => .N
  | .reset => .N

/-- The response column of R81: the format of the answer to a command that executes. -/
def Instr.respFormat : Instr → RespFormat
  | .kgen => .R0
  | .pad _ => .R0
  | .hinit => .R0
  | .compress => .R0
  | .unpack => .R32
  | .status => .R4
  | .reset => .R0

end Sys2Proof
end

