-- ==== Sys2Proof/Decode.lean ====
section
/-! DEFINITION. Decoding command frames, total and with a named reason for every frame that is no command
(30_encoding.md R71, R81 to R83), the encoder, and the host's table-word form of both. -/

namespace Sys2Proof

/-- Why a frame is not a well-formed command: the three cases of R82. -/
inductive Invalid where
  /-- Case 1: there is no opcode byte. -/
  | emptyFrame
  /-- Case 2: the opcode is `0x00` or in `0x08 .. 0xFF`. -/
  | reservedOpcode (op : Byte)
  /-- Case 3: a format `N` opcode with a payload. -/
  | payloadNotAllowed (op : Byte)
  deriving DecidableEq, Repr

/-- What a frame is read as (R83): a command, or `Invalid`. -/
inductive Decoded where
  | command (i : Instr)
  | invalid (why : Invalid)
  deriving DecidableEq, Repr

/-- A format `N` opcode allows no payload (R71, R82 case 3). -/
def decodeN (i : Instr) (op : Byte) (payload : List Byte) : Decoded :=
  match payload with
  | [] => .command i
  | _ :: _ => .invalid (.payloadNotAllowed op)

/-- The decoder of R83 over the opcode map of R81. It reads no state and guesses nothing: all 8 bits of byte 0 are
significant. -/
def decode : Frame → Decoded
  | [] => .invalid .emptyFrame
  | op :: payload =>
    if op = 0x01#8 then decodeN .kgen op payload
    else if op = 0x02#8 then .command (.pad payload)
    else if op = 0x03#8 then decodeN .hinit op payload
    else if op = 0x04#8 then decodeN .compress op payload
    else if op = 0x05#8 then decodeN .unpack op payload
    else if op = 0x06#8 then decodeN .status op payload
    else if op = 0x07#8 then decodeN .reset op payload
    else .invalid (.reservedOpcode op)

/-- The opcode of a command (R81). -/
def Instr.opcode : Instr → Byte
  | .kgen => 0x01#8
  | .pad _ => 0x02#8
  | .hinit => 0x03#8
  | .compress => 0x04#8
  | .unpack => 0x05#8
  | .status => 0x06#8
  | .reset => 0x07#8

/-- The payload of a command's frame (R71, R79). -/
def Instr.payload : Instr → List Byte
  | .kgen => []
  | .pad msg => msg
  | .hinit => []
  | .compress => []
  | .unpack => []
  | .status => []
  | .reset => []

/-- A command frame is `opcode :: payload` (R71). -/
def encode (i : Instr) : Frame :=
  i.opcode :: i.payload

/-- The `n` bytes of a table word, the first byte in its lowest 8 bits (byte 0 of the frame is sent first, R70). -/
def bytesOfTableWord : Nat → Nat → Frame
  | 0, _ => []
  | n + 1, w => BitVec.ofNat 8 w :: bytesOfTableWord n (w / 256)

/-- The frame of a table row's bits. A frame's length comes from the transport (R84), so the bits above `nbits` are no
bytes of the frame: a PAD row of 8 bits is the frame `02`, the empty message. -/
def frameOfTableWord (nbits w : Nat) : Frame :=
  bytesOfTableWord ((nbits + 7) / 8) w

/-- The command this decoder reads from an opcode-table word; `none` where it refuses. -/
def decodeTableWord (nbits w : Nat) : Option Instr :=
  match decode (frameOfTableWord nbits w) with
  | .command i => some i
  | .invalid _ => none

end Sys2Proof
end

