-- ==== Sys2Proof/Config.lean ====
section
/-! DEFINITION. What an implementation fixes (00_scope.md R6 to R9) and the one family of free values,
the contents of storage that nothing has written (00_scope.md R14, 93_implementation_defined.md U6). -/

namespace Sys2Proof

/-- `LEN_MODE` (R8): the length field of a message of `2^32` bits or more. -/
inductive LenMode where
  | trunc32
  | full64
  deriving DecidableEq, Repr

/-- The five storage spaces of 20_memory.md R50. -/
inductive Space where
  | K
  | H
  | W
  | wv
  | M
  deriving DecidableEq, Repr

/-- The implementation parameters of R6 to R9. `CNT_W` (R31) is visible in no rule and is left out (log entry 7). -/
structure Params where
  /-- `K_PRELOADED` (R6). -/
  kPreloaded : Bool
  /-- `MSG_CAP` (R7): `none` is the unbounded engine. -/
  msgCap : Option Nat
  /-- `LEN_MODE` (R8). -/
  lenMode : LenMode
  /-- `N_ENGINES` (R9). -/
  nEngines : Nat
  /-- `K_SHARED` (R9). -/
  kShared : Bool
  deriving DecidableEq, Repr

/-- The defaults of R6, R8 and R9, and the unbounded message store 92_eei_decisions.md gives the abstract model
for `MSG_CAP`. -/
def Params.standard : Params :=
  { kPreloaded := false, msgCap := none, lenMode := .trunc32, nEngines := 1, kShared := true }

/-- `NBMAX = floor((MSG_CAP + 8) / 64) + 1` (R7, R29); `none` if the store is unbounded. -/
def Params.nbMax (p : Params) : Option Nat :=
  p.msgCap.map fun c => (c + 8) / 64 + 1

/-- `novalue`, word `i` of a space nothing has written since reset: an uninterpreted word, never a chosen number
(R14, U6; log entries 2 and 4). -/
opaque Config.novalue : Space → Nat → Word

end Sys2Proof
end

