-- ==== Sys2Proof/Machine/State.lean ====
section
/-! DEFINITION. The state of the machine, the reset state, and the reasons a step can stop.
10_state.md R20 is the spec's list of state; INVENTORY.md repeats it with the reset values. -/

namespace Sys2Proof.Machine

/-- Why a step stops. The engine itself never does: a command it cannot execute is a rejection, which is a next state
(60_exceptions.md R190). -/
inductive Fault where
  /-- Raised by `deliver` for a frame on the transport of an engine the system does not have: engines are
  `0 .. N_ENGINES-1` (60_exceptions.md R203). Safe: no host can send such a frame (log entry 5). -/
  | noSuchEngine (e : Nat)
  deriving DecidableEq, Repr

/-- Why a step has no meaning. -/
inductive Refusal where
  /-- Raised by an arm of `exec` for a command without a meaning. Safe. No arm raises it: every command has its
  meaning. -/
  | notModelled (mnemonic : String)
  deriving DecidableEq, Repr

/-- The response codes of 30_encoding.md R73. -/
inductive Code where
  | ok
  | invalidArgument
  | notReady
  | sequence
  deriving DecidableEq, Repr

/-- The working variables `a..h` (10_state.md R27); `wv[0] = a`, ..., `wv[7] = h` (R21). -/
structure Work where
  a : Word
  b : Word
  c : Word
  d : Word
  e : Word
  f : Word
  g : Word
  h : Word
  deriving DecidableEq, Repr

/-- The round-constant table and its valid flag, which several engines may share (10_state.md R22, R23;
60_exceptions.md R204). -/
structure Table where
  K : Vector Word 64
  KV : Bool
  deriving DecidableEq, Repr

/-- The private state of one engine: 10_state.md R20 less the table (60_exceptions.md R203). -/
structure Engine where
  /-- The hash state (R24) and whether HINIT has run since reset (R25). -/
  H : Vector Word 8
  HV : Bool
  /-- The message schedule (R26) and the working variables (R27). -/
  W : Vector Word 64
  wv : Work
  /-- The padded message (R28), its number of blocks (R29), the index of the next block (R30). -/
  M : List Word
  NB : Nat
  BP : Nat
  /-- The sticky rejection flag (R37) and the code of the latest rejection (R38). -/
  ERR : Bool
  ECODE : BitVec 4
  deriving DecidableEq, Repr

/-- What the outside world can do to the machine. -/
inductive Input where
  /-- A frame arrives on the transport of an engine (00_scope.md R17, 60_exceptions.md R203). -/
  | frame (engine : Nat) (bytes : Frame)
  /-- The reset input is asserted while the listed commands are executing: they are abandoned
  (70_reset_and_hazards.md R220, R221; log entry 6). -/
  | resetInput (abandoned : List (Nat × Frame))
  deriving DecidableEq, Repr

/-- A response frame and the engine that sent it (30_encoding.md R72). -/
structure Response where
  engine : Nat
  bytes : Frame
  deriving DecidableEq, Repr

/-- The machine: its parameters, its tables and engines, and its boundary to the host. -/
structure State where
  /-- The parameters of 00_scope.md R6 to R9, which no step changes (log entry 1). -/
  params : Params
  /-- One table if `K_SHARED`, else one per engine (60_exceptions.md R203, R204). -/
  tables : List Table
  engines : List Engine
  /-- The engine whose transport delivered the frame being executed (log entry 3). -/
  cur : Nat
  /-- What has been delivered and not yet executed, oldest first (20_memory.md R60). -/
  inbox : List Input
  /-- The response frames sent, oldest first. -/
  outbox : List Response
  deriving DecidableEq, Repr

/-- `n` words of storage that nothing has written: R14, R44, R46 (log entry 2). -/
def novalues (sp : Space) (n : Nat) : Vector Word n :=
  ⟨((List.range n).map (Config.novalue sp)).toArray, by simp⟩

/-- The reset state of a table: R44, or R45 with `K_PRELOADED`. -/
def Table.reset (p : Params) : Table :=
  if p.kPreloaded then { K := roundTable, KV := true }
  else { K := novalues .K 64, KV := false }

/-- The reset state of an engine's private storage (R44). -/
def Engine.reset : Engine :=
  { H := novalues .H 8
    HV := false
    W := novalues .W 64
    wv :=
      { a := Config.novalue .wv 0, b := Config.novalue .wv 1, c := Config.novalue .wv 2, d := Config.novalue .wv 3
        e := Config.novalue .wv 4, f := Config.novalue .wv 5, g := Config.novalue .wv 6, h := Config.novalue .wv 7 }
    M := []
    NB := 0
    BP := 0
    ERR := false
    ECODE := 0#4 }

/-- How many tables a system has: one if `K_SHARED`, else one per engine (60_exceptions.md R204). -/
def Params.nTables (p : Params) : Nat :=
  if p.kShared then 1 else p.nEngines

/-- The machine right after the reset input, for any parameters: all engines and tables together
(60_exceptions.md R203, R206), nothing delivered, nothing sent. -/
def State.resetWith (p : Params) : State :=
  { params := p
    tables := List.replicate (Params.nTables p) (Table.reset p)
    engines := List.replicate p.nEngines Engine.reset
    cur := 0
    inbox := []
    outbox := [] }

/-- The machine right after reset, with the spec's default parameters. -/
def State.reset : State := State.resetWith Params.standard

end Sys2Proof.Machine
end

