-- ==== Sys2Proof/Machine/Ops.lean ====
section
/-! DEFINITION. The named operations over the state: the storage of the engine that executes, one word of a space,
answering a command, rejecting one (the machine's only exception), and reset. -/

namespace Sys2Proof.Machine

/-- Which table the executing engine reads: the shared one, or its own (60_exceptions.md R204). -/
def State.tableIndex (s : State) : Nat :=
  if s.params.kShared then 0 else s.cur

/-- The table the executing engine reads. The second reading, for a table the system does not have, is the reset table
and occurs in no state a run reaches. -/
def State.tbl (s : State) : Table :=
  s.tables.getD s.tableIndex (Table.reset s.params)

/-- The private storage of the executing engine (second reading as for `State.tbl`). -/
def State.eng (s : State) : Engine :=
  s.engines.getD s.cur Engine.reset

/-- Write the table of the executing engine. -/
def State.setTbl (s : State) (t : Table) : State :=
  { s with tables := s.tables.set s.tableIndex t }

/-- Write the private storage of the executing engine. -/
def State.setEng (s : State) (e : Engine) : State :=
  { s with engines := s.engines.set s.cur e }

/-- Read word `i` of a space. Every index a rule computes is in range (20_memory.md R53); outside the space the word is
uninterpreted (log entry 4). -/
def rd {n : Nat} (sp : Space) (v : Vector Word n) (i : Nat) : Word :=
  v.toList.getD i (Config.novalue sp i)

/-- Read word `j` of the padded message (as `rd`). -/
def rdM (m : List Word) (j : Nat) : Word :=
  m.getD j (Config.novalue .M j)

/-- Write word `i` of a space: `X[i] <- x` (00_scope.md R13). -/
def wr {n : Nat} (v : Vector Word n) (i : Nat) (x : Word) : Vector Word n :=
  v.setIfInBounds i x

/-- The status byte of a response (30_encoding.md R73). -/
def Code.byte : Code → Byte
  | .ok => 0x00#8
  | .invalidArgument => 0x01#8
  | .notReady => 0x02#8
  | .sequence => 0x03#8

/-- The value `ECODE` records (60_exceptions.md R191). -/
def Code.ecode : Code → BitVec 4
  | .ok => 0#4
  | .invalidArgument => 1#4
  | .notReady => 2#4
  | .sequence => 3#4

/-- Send a response frame `status :: payload` from the executing engine (30_encoding.md R72). -/
def State.send (s : State) (c : Code) (payload : List Byte) : State :=
  { s with outbox := s.outbox ++ [{ engine := s.cur, bytes := c.byte :: payload }] }

/-- `respond OK, payload` (00_scope.md R13). -/
def State.respondOk (s : State) (payload : List Byte) : State :=
  s.send .ok payload

/-- `reject CODE`, the whole of this hardware's exception entry (60_exceptions.md R190, R199): `ERR <- 1`,
`ECODE <- code`, an `R0` response with the code, and nothing else. There is no return from it (R201). -/
def State.reject (s : State) (c : Code) : State :=
  (s.setEng { s.eng with ERR := true, ECODE := c.ecode }).send c []

/-- Whether the table of the executing engine is shared with another engine (60_exceptions.md R206). -/
def State.tableIsShared (s : State) : Bool :=
  s.params.kShared && decide (1 < s.params.nEngines)

/-- The reset a RESET command performs (43_system_commands.md R161): the engine's private state, and its table unless
another engine shares it (60_exceptions.md R206, 90_conflicts.md C11). -/
def State.resetEngine (s : State) : State :=
  let own := s.setEng Engine.reset
  if s.tableIsShared then own else own.setTbl (Table.reset s.params)

/-- The reset the reset input performs: all engines and all tables together (60_exceptions.md R206). The boundary to the
host is not the engine's state and stays. -/
def State.resetAll (s : State) : State :=
  { s with
    tables := List.replicate (Params.nTables s.params) (Table.reset s.params)
    engines := List.replicate s.params.nEngines Engine.reset }

end Sys2Proof.Machine
end

