-- ==== Sys2Proof/WellFormed.lean ====
section
/-! DEFINITION. Which commands an implementation can hold: the one operand limit of the command set, `n <= MSG_CAP`
(00_scope.md R7, 41_codec.md R120). -/

namespace Sys2Proof

/-- Whether a message of `n` bytes is within `MSG_CAP` (R7). -/
def msgFits (p : Params) (n : Nat) : Bool :=
  match p.msgCap with
  | none => true
  | some cap => decide (n ≤ cap)

/-- A command is well formed for an implementation if its operand is within the operand limit
(60_exceptions.md R198 test 2). The commands without an operand always are. -/
def WellFormed (p : Params) : Instr → Bool
  | .kgen => true
  | .pad msg => msgFits p msg.length
  | .hinit => true
  | .compress => true
  | .unpack => true
  | .status => true
  | .reset => true

end Sys2Proof
end

