-- ==== Sys2Proof/Machine/Operands.lean ====
section
/-! DEFINITION. The forms in which data enters and leaves a command: bytes packed into words and back
(41_codec.md R110 to R114), the message operand of PAD (30_encoding.md R79), the block operand of COMPRESS
(42_compression.md R140). -/

namespace Sys2Proof.Machine

/-- Four bytes in sequence order make one big-endian word: byte 0 is the most significant (20_memory.md R54,
30_encoding.md R74). -/
def packWord (b0 b1 b2 b3 : Byte) : Word :=
  b0 ++ b1 ++ b2 ++ b3

/-- `b2w` (R110). A trailing partial word is zero-filled in the low-order byte positions (R111). -/
def b2w : List Byte → List Word
  | [] => []
  | [b0] => [packWord b0 0 0 0]
  | [b0, b1] => [packWord b0 b1 0 0]
  | [b0, b1, b2] => [packWord b0 b1 b2 0]
  | b0 :: b1 :: b2 :: b3 :: rest => packWord b0 b1 b2 b3 :: b2w rest

/-- The four bytes of a word, most significant first (20_memory.md R54). -/
def unpackWord (w : Word) : List Byte :=
  [w.extractLsb' 24 8, w.extractLsb' 16 8, w.extractLsb' 8 8, w.extractLsb' 0 8]

/-- `w2b` (R112). -/
def w2b (ws : List Word) : List Byte :=
  ws.flatMap unpackWord

/-- Test 2 of 60_exceptions.md R198: the message is within `MSG_CAP`. -/
def State.acceptsMsg (s : State) (msg : List Byte) : Bool :=
  msgFits s.params msg.length

/-- `MemRead(M, 16*BP, 16)` (00_scope.md R13): the block COMPRESS processes, block `BP` of `M` (10_state.md R28). -/
def blockAt (m : List Word) (bp : Nat) : List Word :=
  (List.range 16).map fun t => rdM m (16 * bp + t)

/-- The form of the one storage whose size varies: `M` holds exactly `16*NB` words (10_state.md R28, 20_memory.md R58). -/
def Memory.wf (m : List Word) (nb : Nat) : Bool :=
  m.length == 16 * nb

end Sys2Proof.Machine
end

