-- ==== Sys2Proof/Machine/Codec.lean ====
section
/-! DEFINITION. Padding, PAD and UNPACK (41_codec.md R115 to R122). -/

namespace Sys2Proof.Machine

/-- The number of zero bytes of the padding, `z = (55 - n) mod 64` with a non-negative result (R116). -/
def zeroBytes (n : Nat) : Nat :=
  ((55 - (n : Int)) % 64).toNat

/-- The length field (R117): with `L = 8*n`, the low word is `L mod 2^32`; the high word is 0 under `trunc32` and
`floor(L / 2^32) mod 2^32` under `full64`. -/
def lenfield (mode : LenMode) (n : Nat) : List Byte :=
  match mode with
  | .trunc32 => w2b [0#32, BitVec.ofNat 32 (8 * n)]
  | .full64 => w2b [BitVec.ofNat 32 (8 * n / 2 ^ 32), BitVec.ofNat 32 (8 * n)]

/-- `padbytes(msg) = msg ++ [0x80] ++ (z bytes 0x00) ++ lenfield(n)` (R118). -/
def padbytes (mode : LenMode) (msg : List Byte) : List Byte :=
  msg ++ [0x80#8] ++ List.replicate (zeroBytes msg.length) 0x00#8 ++ lenfield mode msg.length

/-- `padwords(msg) = b2w(padbytes(msg))` (R118). -/
def padwords (mode : LenMode) (msg : List Byte) : List Word :=
  b2w (padbytes mode msg)

/-- PAD (R120): reject a message over `MSG_CAP`; otherwise load its padded words, `NB` and `BP <- 0`. It touches neither
`H` nor the flags, and abandons blocks still pending. -/
def execPad (msg : List Byte) (s : State) : Host.Outcome State Fault Refusal :=
  if s.acceptsMsg msg then
    let words := padwords s.params.lenMode msg
    .next ((s.setEng { s.eng with M := words, NB := words.length / 16, BP := 0 }).respondOk [])
  else .next (s.reject .invalidArgument)

/-- UNPACK (R122): the 32 bytes of `H`, word 0 first; NOT_READY if `HV = 0`. It changes no state. -/
def execUnpack (s : State) : Host.Outcome State Fault Refusal :=
  if s.eng.HV then .next (s.respondOk (w2b s.eng.H.toList))
  else .next (s.reject .notReady)

end Sys2Proof.Machine
end

