-- ==== Sys2Proof/Machine/Flags.lean ====
section
/-! DEFINITION. The flags computed and not stored, and the status word (10_state.md R35 to R41). The engine has no
arithmetic condition codes (R35). -/

namespace Sys2Proof.Machine

/-- `BLK`, a block is pending: `1 if BP < NB else 0` (R36). -/
def Engine.blk (e : Engine) : Bool :=
  decide (e.BP < e.NB)

/-- `STATUS = zext_32(ECODE :: ERR :: BLK :: HV :: KV)` (R40). -/
def statusWord (t : Table) (e : Engine) : Word :=
  (e.ECODE ++ BitVec.ofBool e.ERR ++ BitVec.ofBool e.blk ++ BitVec.ofBool e.HV ++ BitVec.ofBool t.KV).setWidth 32

/-- The status word the executing engine would return. -/
def State.status (s : State) : Word :=
  statusWord s.tbl s.eng

end Sys2Proof.Machine
end

