-- ==== Sys2Proof/Machine/WordOps.lean ====
section
/-! DEFINITION. Word arithmetic of the compression engine (42_compression.md R130 to R138). `+` (R130), `&&&`, `^^^`
(R131) and `~~~` (R132) are those of `BitVec 32`: unsigned, modulo `2^32`, no flag, no trap. -/

namespace Sys2Proof.Machine

/-- `rotr(x, n)` (R134): `(floor(x / 2^n) + (x mod 2^n) * 2^(32-n)) mod 2^32`, for `1 <= n <= 31`. -/
def rotr (x : Word) (n : Nat) : Word :=
  BitVec.ofNat 32 (x.toNat / 2 ^ n + x.toNat % 2 ^ n * 2 ^ (32 - n))

/-- `shr(x, n) = floor(x / 2^n)` (R135): zeros enter at the top. -/
def shr (x : Word) (n : Nat) : Word :=
  BitVec.ofNat 32 (x.toNat / 2 ^ n)

/-- The schedule mix sigma-0 (R136). -/
def ssig0 (x : Word) : Word := rotr x 7 ^^^ rotr x 18 ^^^ shr x 3

/-- The schedule mix sigma-1 (R136). -/
def ssig1 (x : Word) : Word := rotr x 17 ^^^ rotr x 19 ^^^ shr x 10

/-- The round mix Sigma0 (R137). -/
def bsig0 (x : Word) : Word := rotr x 2 ^^^ rotr x 13 ^^^ rotr x 22

/-- The round mix Sigma1 (R137). -/
def bsig1 (x : Word) : Word := rotr x 6 ^^^ rotr x 11 ^^^ rotr x 25

/-- Choice (R138). -/
def ch (x y z : Word) : Word := (x &&& y) ^^^ (~~~x &&& z)

/-- Majority (R138). -/
def maj (x y z : Word) : Word := (x &&& y) ^^^ (x &&& z) ^^^ (y &&& z)

end Sys2Proof.Machine
end

