-- ==== Sys2Proof/Machine/Compression.lean ====
section
/-! DEFINITION. HINIT and COMPRESS (42_compression.md R139 to R149). -/

namespace Sys2Proof.Machine

/-- The initial value `IV` (R139). -/
def initialValue : Vector Word 8 :=
  #v[0x6a09e667#32, 0xbb67ae85#32, 0x3c6ef372#32, 0xa54ff53a#32,
    0x510e527f#32, 0x9b05688c#32, 0x1f83d9ab#32, 0x5be0cd19#32]

/-- HINIT (R139): `H <- IV`, `HV <- 1`. -/
def execHinit (s : State) : Host.Outcome State Fault Refusal :=
  .next ((s.setEng { s.eng with H := initialValue, HV := true }).respondOk [])

/-- Step 1 (R141): `W[t] <- M[16*BP + t]` for `t` in `0 .. 15`. -/
def loadBlock (m : List Word) (bp : Nat) (w : Vector Word 64) : Vector Word 64 :=
  (List.range 16).foldl (fun w t => wr w t (rdM m (16 * bp + t))) w

/-- One slot of step 2: `W[t] <- W[t-16] + ssig0(W[t-15]) + W[t-7] + ssig1(W[t-2])` (R142). -/
def expandSlot (w : Vector Word 64) (t : Nat) : Vector Word 64 :=
  wr w t (rd .W w (t - 16) + ssig0 (rd .W w (t - 15)) + rd .W w (t - 7) + ssig1 (rd .W w (t - 2)))

/-- Step 2 (R142): slots 16 to 63 in increasing order. -/
def expand (w : Vector Word 64) : Vector Word 64 :=
  (List.range' 16 48).foldl expandSlot w

/-- Step 3 (R143): `a <- H[0]`, ..., `h <- H[7]`. -/
def copyHash (hs : Vector Word 8) : Work :=
  { a := hs[0], b := hs[1], c := hs[2], d := hs[3], e := hs[4], f := hs[5], g := hs[6], h := hs[7] }

/-- One round of step 4 (R144) with constant `k` and schedule word `w`; every right-hand side reads the values at the
start of the round. -/
def roundStep (k w : Word) (v : Work) : Work :=
  let t1 := v.h + bsig1 v.e + ch v.e v.f v.g + k + w
  let t2 := bsig0 v.a + maj v.a v.b v.c
  { a := t1 + t2, b := v.a, c := v.b, d := v.c, e := v.d + t1, f := v.e, g := v.f, h := v.g }

/-- Rounds `0 .. n-1` of step 4 (R144): round `i` uses `K[i]` and `W[i]`. -/
def rounds (k w : Vector Word 64) (n : Nat) (v : Work) : Work :=
  (List.range n).foldl (fun v i => roundStep (rd .K k i) (rd .W w i) v) v

/-- Step 5 (R145): `H[0] += a`, ..., `H[7] += h`. -/
def addBack (hs : Vector Word 8) (v : Work) : Vector Word 8 :=
  #v[hs[0] + v.a, hs[1] + v.b, hs[2] + v.c, hs[3] + v.d, hs[4] + v.e, hs[5] + v.f, hs[6] + v.g, hs[7] + v.h]

/-- Steps 1 to 5 on block `BP`, and `BP <- BP + 1` (R140). `W` and `a..h` keep what the block left in them
(10_state.md R42). -/
def compressBlock (k : Vector Word 64) (e : Engine) : Engine :=
  let w := expand (loadBlock e.M e.BP e.W)
  let v := rounds k w 64 (copyHash e.H)
  { e with W := w, wv := v, H := addBack e.H v, BP := e.BP + 1 }

/-- `compress : (Hin : 8 words) -> (blk : 16 words) -> (K : 64 words) -> (Hout : 8 words)` (R146), the five steps as a
function of the old hash state, the block and the table; the schedule starts from storage nothing has written. -/
def compress (hin : Vector Word 8) (blk : List Word) (k : Vector Word 64) : Vector Word 8 :=
  addBack hin (rounds k (expand (loadBlock blk 0 (novalues .W 64))) 64 (copyHash hin))

/-- COMPRESS (R140): the tests `KV = 1`, `HV = 1`, `BP < NB` in this order (60_exceptions.md R198), then the block. -/
def execCompress (s : State) : Host.Outcome State Fault Refusal :=
  if s.tbl.KV = false then .next (s.reject .notReady)
  else if s.eng.HV = false then .next (s.reject .notReady)
  else if s.eng.blk = false then .next (s.reject .sequence)
  else .next ((s.setEng (compressBlock s.tbl.K s.eng)).respondOk [])

end Sys2Proof.Machine
end

