-- ==== Sys2Proof/Machine/ConstGen.lean ====
section
/-! DEFINITION. The constant generator and KGEN (40_constant_generator.md). -/

namespace Sys2Proof.Machine

/-- The largest `r` below `r + 2^bits` whose `k`-th power is at most `x`, one bit at a time from the top. -/
def rootBits (k x : Nat) : Nat → Nat → Nat
  | 0, r => r
  | bits + 1, r => rootBits k x bits (if (r + 2 ^ bits) ^ k ≤ x then r + 2 ^ bits else r)

/-- `floor(sqrt(n))`, the largest `s` with `s*s <= n` (R91). -/
def isqrt (n : Nat) : Nat := rootBits 2 n (n.log2 / 2 + 1) 0

/-- `icbrt(x)`, the largest `r` with `r*r*r <= x` (R95). -/
def icbrt (x : Nat) : Nat := rootBits 3 x (x.log2 / 3 + 1) 0

/-- Trial division by `2, 3, ..., floor(sqrt(n))` (R91). It answers true for 0 and 1, as the spec says; the scan never
asks (R92). -/
def isprime (n : Nat) : Bool :=
  (List.range' 2 (isqrt n - 1)).all fun d => n % d != 0

/-- `icbrt(p * 2^96) mod 2^32` (R95). -/
def roundConstant (p : Nat) : Word :=
  BitVec.ofNat 32 (icbrt (p * 2 ^ 96))

/-- The scan of R92 and R99: examine `fuel` candidates from `n` on and keep the primes, at most `need` of them. -/
def scanPrimes : Nat → Nat → Nat → List Nat
  | 0, _, _ => []
  | _, _, 0 => []
  | fuel + 1, n, need + 1 =>
    if isprime n then n :: scanPrimes fuel (n + 1) need
    else scanPrimes fuel (n + 1) (need + 1)

/-- The primes `p_0 .. p_63` (R92, R97): the scan examines the 310 candidates 2 to 311 (R101). -/
def primes64 : List Nat := scanPrimes 310 2 64

/-- The table the generator computes, in the order of the primes (R90, R99). -/
def generatedTable : Vector Word 64 :=
  ⟨(primes64.map roundConstant).toArray, by decide +kernel⟩

/-- KGEN (R99): fill the table and set `KV`; if `KV = 1` already, change nothing (R100). -/
def execKgen (s : State) : Host.Outcome State Fault Refusal :=
  if s.tbl.KV then .next (s.respondOk [])
  else .next ((s.setTbl { K := generatedTable, KV := true }).respondOk [])

end Sys2Proof.Machine
end

