-- ==== Sys2Proof/Machine/System.lean ====
section
/-! DEFINITION. The system commands STATUS and RESET (43_system_commands.md). -/

namespace Sys2Proof.Machine

/-- STATUS (R160): the status word, 4 bytes, most significant first. It changes no state and clears nothing. -/
def execStatus (s : State) : Host.Outcome State Fault Refusal :=
  .next (s.respondOk (w2b [s.status]))

/-- RESET (R161): the reset of 70_reset_and_hazards.md R220, then OK. -/
def execReset (s : State) : Host.Outcome State Fault Refusal :=
  .next (s.resetEngine.respondOk [])

end Sys2Proof.Machine
end

