-- ==== Sys2Proof/Machine/Dispatch.lean ====
section
/-! DEFINITION. One arm per command (30_encoding.md R81). -/

namespace Sys2Proof.Machine

def exec (i : Instr) (s : State) : Host.Outcome State Fault Refusal :=
  match i with
  | .kgen => Sys2Proof.Machine.execKgen s
  | .pad msg => Sys2Proof.Machine.execPad msg s
  | .hinit => Sys2Proof.Machine.execHinit s
  | .compress => Sys2Proof.Machine.execCompress s
  | .unpack => Sys2Proof.Machine.execUnpack s
  | .status => Sys2Proof.Machine.execStatus s
  | .reset => Sys2Proof.Machine.execReset s

end Sys2Proof.Machine
end

