-- ==== Sys2Proof/Machine/Deliver.lean ====
section
/-! DEFINITION. What one delivery does: a frame is decoded and executed or rejected; the reset input resets everything
(00_scope.md R17; 30_encoding.md R83; 70_reset_and_hazards.md R220, R221). -/

namespace Sys2Proof.Machine

/-- Execute a frame on the engine that received it; a frame that is no command is `reject INVALID_ARGUMENT` (R83). -/
def runFrame (f : Frame) (s : State) : Host.Outcome State Fault Refusal :=
  match decode f with
  | .command i => exec i s
  | .invalid _ => .next (s.reject .invalidArgument)

/-- Take one entry of `inbox` (already removed from it). The frames a reset input abandons are lost without a response
(R221). -/
def deliver (inp : Input) (s : State) : Host.Outcome State Fault Refusal :=
  match inp with
  | .frame e f =>
    if e < s.engines.length then runFrame f { s with cur := e }
    else .fault (.noSuchEngine e)
  | .resetInput _ => .next s.resetAll

/-- The oldest entry of `inbox` is taken; with none the machine is idle and holds its state (60_exceptions.md R210). -/
def takeInput (s : State) : Host.Outcome State Fault Refusal :=
  match s.inbox with
  | [] => .next s
  | inp :: rest => deliver inp { s with inbox := rest }

/-- Put a table word's frame at the head of `inbox`, on the transport of engine `cur`. -/
def pushTableWord (s : State) (nbits w : Nat) : State :=
  { s with inbox := .frame s.cur (frameOfTableWord nbits w) :: s.inbox }

end Sys2Proof.Machine
end

