-- ==== Sys2Proof/Machine/Step.lean ====
section
/-! DEFINITION. One step of the machine: one whole command, one assertion of the reset input, or idleness
(20_memory.md R60). -/

namespace Sys2Proof.Machine

def step (s : State) : Host.Outcome State Fault Refusal :=
  takeInput s

/-- The same state with an opcode-table word as the next frame (log entry 8). -/
def State.withFetchWord (s : State) (nbits w : Nat) : State :=
  pushTableWord s nbits w

end Sys2Proof.Machine
end

