-- ==== Sys2Proof/Machine/HostSeq.lean ====
section
/-! DEFINITION. The host's side, outside the engine (00_scope.md R4): the pseudo-commands RUN, DIGEST and DIGEST2 as frames
and as an agent (30_encoding.md R86, 45_host_sequences.md R170 to R174), what a digest is as a function, the host
library's text formats (R175 to R181), and the textual form of a command (30_encoding.md R85). -/

namespace Sys2Proof.Machine

/-- `NB` of a message of `n` bytes (41_codec.md R119). -/
def blocksOf (n : Nat) : Nat :=
  (n + 8) / 64 + 1

/-- RUN by a host that knows `NB`: COMPRESS `NB` times (R170). -/
def runFrames (nb : Nat) : List Frame :=
  List.replicate nb (encode .compress)

/-- DIGEST (R171): `HINIT; PAD msg; RUN; UNPACK`. -/
def digestFrames (msg : List Byte) : List Frame :=
  [encode .hinit, encode (.pad msg)] ++ runFrames (blocksOf msg.length) ++ [encode .unpack]

/-- DIGEST2 (R173): DIGEST of the message, then DIGEST of the 32 bytes `d1` that the first UNPACK returned. -/
def digest2Frames (msg d1 : List Byte) : List Frame :=
  digestFrames msg ++ digestFrames d1

/-- The hash state after all blocks of a padded message: `compress` folded over the blocks from `IV`
(42_compression.md R146). -/
def hashOf (mode : LenMode) (k : Vector Word 64) (msg : List Byte) : Vector Word 8 :=
  (List.range (blocksOf msg.length)).foldl
    (fun h j => compress h (blockAt (padwords mode msg) j) k) initialValue

/-- What DIGEST returns (R171): `w2b(fold(compress(., ., K), IV, blocks of padwords(msg)))`. -/
def digestOf (mode : LenMode) (k : Vector Word 64) (msg : List Byte) : List Byte :=
  w2b (hashOf mode k msg).toList

/-- The host sends one frame to engine `e` and waits for the machine to take it (20_memory.md R60). -/
def hostSend (e : Nat) (f : Frame) (s : State) : Host.Outcome State Fault Refusal :=
  step { s with inbox := .frame e f :: s.inbox }

/-- The status byte of the last response, if any (30_encoding.md R72). -/
def lastStatus (s : State) : Option Byte :=
  s.outbox.getLast?.bind fun r => r.bytes.head?

/-- `STATUS.BLK` as the host reads it: bit 2 of the last byte of the last response (10_state.md R40). -/
def lastBlk (s : State) : Bool :=
  match s.outbox.getLast?.bind fun r => r.bytes.getLast? with
  | some b => b.getLsbD 2
  | none => false

/-- RUN by a host that polls (R170), with a bound on its rounds: read STATUS; stop if `BLK = 0`; COMPRESS; stop if that
was rejected; again. -/
def hostRun (e : Nat) : Nat → State → Host.Outcome State Fault Refusal
  | 0, s => .next s
  | n + 1, s =>
    match hostSend e (encode .status) s with
    | .next s1 =>
      if lastBlk s1 then
        match hostSend e (encode .compress) s1 with
        | .next s2 => if lastStatus s2 = some Code.ok.byte then hostRun e n s2 else .next s2
        | .fault r => .fault r
        | .refused r => .refused r
      else .next s1
    | .fault r => .fault r
    | .refused r => .refused r

/-- One lowercase hexadecimal digit (R176). -/
def hexDigit (n : Nat) : Char :=
  "0123456789abcdef".toList.getD n '0'

/-- Two hexadecimal digits, the most significant nibble first (R176). -/
def hexByte (b : Byte) : List Char :=
  [hexDigit (b.toNat / 16), hexDigit (b.toNat % 16)]

/-- `hex(d)` (R176). -/
def hex (d : List Byte) : List Char :=
  d.flatMap hexByte

/-- `bytesToString` (R178): one character per byte, with the byte as its code. -/
def bytesToString (d : List Byte) : List Char :=
  d.map fun b => Char.ofNat b.toNat

/-- The output options of R181. Both default to false (R175). -/
structure OutputOptions where
  asBytes : Bool := false
  asString : Bool := false
  deriving DecidableEq, Repr

/-- A formatted result: bytes or text (R181). Every character of a text has a code below 256 (R176, R178), where code units
and code points are the same. -/
inductive Output where
  | bytes (d : List Byte)
  | text (t : List Char)
  deriving DecidableEq, Repr

/-- `format(d, opts)` (R175): `asBytes` takes precedence over `asString`; the default is hexadecimal. -/
def format (d : List Byte) (opts : OutputOptions) : Output :=
  if opts.asBytes then .bytes d
  else if opts.asString then .text (bytesToString d)
  else .text (hex d)

/-- What the host library can be given: bytes, text (R181), or a value of another type (R180). What a text is, 16-bit code
units or code points, is left open (90_conflicts.md C7), so its type is an argument `τ` and the model settles neither
reading (log entry 12). -/
inductive Message (τ : Type) where
  | bytes (d : List Byte)
  | text (t : τ)
  | other
  deriving DecidableEq, Repr

/-- `tobytes` (R179); `none` is the invalid-argument signal of R180, made before any frame is sent. The UTF-8 encoder is
an external collaborator, so it is an argument (93_implementation_defined.md U5). -/
def tobytes {τ : Type} (encoder : τ → List Byte) : Message τ → Option (List Byte)
  | .bytes d => some d
  | .text t => some (encoder t)
  | .other => none

/-- `DIGEST` of the host library (R181): what the sequence of R171 returns on an engine whose table is valid and so holds
the values of 40_constant_generator.md R98 (10_state.md R22). -/
def libraryDigestOf (mode : LenMode) (msg : List Byte) : List Byte :=
  digestOf mode roundTable msg

/-- `sha256(m, opts) = format(DIGEST(tobytes(m)), opts)` (R181). -/
def libraryDigest {τ : Type} (mode : LenMode) (encoder : τ → List Byte) (m : Message τ) (opts : OutputOptions) :
    Option Output :=
  (tobytes encoder m).map fun d => format (libraryDigestOf mode d) opts

/-- `sha256.x2(m, opts) = format(DIGEST2(tobytes(m)), opts)` (R181), with `DIGEST2` the digest of the 32 raw bytes of the
digest (R173); the options apply to the outer digest only (R174). -/
def libraryDigest2 {τ : Type} (mode : LenMode) (encoder : τ → List Byte) (m : Message τ) (opts : OutputOptions) :
    Option Output :=
  (tobytes encoder m).map fun d => format (libraryDigestOf mode (libraryDigestOf mode d)) opts

/-- The mnemonic of a command (30_encoding.md R81, R85). -/
def mnemonic : Instr → String
  | .kgen => "KGEN"
  | .pad _ => "PAD"
  | .hinit => "HINIT"
  | .compress => "COMPRESS"
  | .unpack => "UNPACK"
  | .status => "STATUS"
  | .reset => "RESET"

/-- The textual form of a command, its message as hex pairs (R85). -/
def commandText (i : Instr) : List Char :=
  (mnemonic i).toList ++ i.payload.flatMap fun b => ' ' :: hexByte b

end Sys2Proof.Machine
end

