-- ==== Sys2Proof/Safety.lean ====
section
/-! DEFINITION. The terms claims are stated in: what a command leaves alone, the invariant of every run, and the relation of
two states that differ only in what nobody has written. -/

namespace Sys2Proof.Machine

/-- The executing engine and the table it reads exist. -/
def State.Selected (s : State) : Prop :=
  s.cur < s.engines.length ∧ s.tableIndex < s.tables.length

/-- Everything outside the executing engine and its table is as before: the parameters, which engine executes, what is
still to come, every other engine and every other table (60_exceptions.md R203). -/
structure OthersKept (s t : State) : Prop where
  params : t.params = s.params
  cur : t.cur = s.cur
  inbox : t.inbox = s.inbox
  nEngines : t.engines.length = s.engines.length
  nTables : t.tables.length = s.tables.length
  engines : ∀ j, j ≠ s.cur → t.engines[j]? = s.engines[j]?
  tables : ∀ j, j ≠ s.tableIndex → t.tables[j]? = s.tables[j]?

/-- Exactly one response frame was sent, by the executing engine (30_encoding.md R72). -/
def Answers (s t : State) (bytes : Frame) : Prop :=
  t.outbox = s.outbox ++ [{ engine := s.cur, bytes := bytes }]

/-- What the outside of the executing engine sees of a rejection with code `c` (60_exceptions.md R190): in its own storage
only `ERR` and `ECODE` change, no table changes, and the response is the code alone. -/
structure RejectedWith (c : Code) (s t : State) : Prop where
  engine : t.eng = { s.eng with ERR := true, ECODE := c.ecode }
  tables : t.tables = s.tables
  others : OthersKept s t
  answer : Answers s t [c.byte]

/-- The state in which a frame delivered to engine `e` executes: it is taken out of `inbox` and `e` is selected. -/
def State.onEngine (s : State) (e : Nat) (rest : List Input) : State :=
  { s with cur := e, inbox := rest }

/-- The bits of a byte sequence, most significant first within each byte (41_codec.md R115). -/
def bitsOf (bs : List Byte) : List Bool :=
  bs.flatMap fun b => (List.range 8).map fun i => b.getLsbD (7 - i)

/-- The form of an engine's private state. -/
structure Engine.Ok (p : Params) (e : Engine) : Prop where
  /-- 10_state.md R30. -/
  bp : e.BP ≤ e.NB
  /-- 10_state.md R28. -/
  mem : Memory.wf e.M e.NB = true
  /-- 10_state.md R29. -/
  nb : ∀ n, p.nbMax = some n → e.NB ≤ n
  /-- 10_state.md R41. -/
  ecode : e.ECODE.toNat ≤ 3
  /-- 10_state.md R37, R38. -/
  err : e.ERR = true ↔ e.ECODE ≠ 0#4

/-- The form of a table: while `KV = 1` it holds the values of 40_constant_generator.md R98 (10_state.md R22). -/
structure Table.Ok (p : Params) (t : Table) : Prop where
  filled : t.KV = true → t.K = roundTable
  preloaded : p.kPreloaded = true → t.KV = true

/-- The form of a response frame (30_encoding.md R72, R73). -/
def ResponseForm (bytes : Frame) : Prop :=
  (∃ c : Code, bytes = [c.byte]) ∨ ∃ p, bytes = Code.ok.byte :: p ∧ (p.length = 4 ∨ p.length = 32)

/-- An entry of `inbox` is on the transport of an engine the system has. -/
def Input.Addressed (n : Nat) : Input → Prop
  | .frame e _ => e < n
  | .resetInput _ => True

/-- What holds in every state of a run. -/
structure State.Inv (s : State) : Prop where
  /-- 00_scope.md R9. -/
  some_engine : 1 ≤ s.params.nEngines
  engines_len : s.engines.length = s.params.nEngines
  tables_len : s.tables.length = Params.nTables s.params
  cur_lt : s.cur < s.params.nEngines
  engines_ok : ∀ e ∈ s.engines, Engine.Ok s.params e
  tables_ok : ∀ t ∈ s.tables, Table.Ok s.params t
  inbox_ok : ∀ i ∈ s.inbox, i.Addressed s.params.nEngines
  outbox_ok : ∀ r ∈ s.outbox, r.engine < s.params.nEngines ∧ ResponseForm r.bytes

/-- Two engines that differ only in storage that holds `novalue` or is scratch: `H` while `HV = 0`, `W`, `a..h`
(00_scope.md R14, 10_state.md R42). -/
structure Engine.Alike (e e' : Engine) : Prop where
  hv : e'.HV = e.HV
  h : e.HV = true → e'.H = e.H
  mem : e'.M = e.M
  nb : e'.NB = e.NB
  bp : e'.BP = e.BP
  err : e'.ERR = e.ERR
  ecode : e'.ECODE = e.ECODE

/-- Two tables that differ only in `K` while `KV = 0`. -/
structure Table.Alike (t t' : Table) : Prop where
  kv : t'.KV = t.KV
  k : t.KV = true → t'.K = t.K

/-- Two states no host can tell apart: they differ only in storage that no rule reads. -/
structure State.Alike (s s' : State) : Prop where
  params : s'.params = s.params
  cur : s'.cur = s.cur
  inbox : s'.inbox = s.inbox
  outbox : s'.outbox = s.outbox
  engines : List.Forall₂ Engine.Alike s.engines s'.engines
  tables : List.Forall₂ Table.Alike s.tables s'.tables

/-- The response frames of one engine, in order. -/
def State.sentBy (s : State) (e : Nat) : List Frame :=
  (s.outbox.filter fun r => r.engine == e).map Response.bytes

/-- `n` steps lead from one state to another: no step of the run stops. The machine stops in no other way than
`noSuchEngine`. -/
def RunsTo : Nat → State → State → Prop
  | 0, s, t => s = t
  | n + 1, s, t => ∃ m, step s = .next m ∧ RunsTo n m t

end Sys2Proof.Machine
end

