-- ==== Sys2Proof/Certificates/Slice0/Obligations.lean ====
section
/-! DEFINITION. The statements about the machine, for the provers. Each docstring names the rule of spec/ it comes from. -/

open Sys2Proof Sys2Proof.Machine

/-! ### Frames and steps -/

/-- 30_encoding.md R81: the frames of the seven commands, written out from the opcode map, decode to them; a payload byte
equal to an opcode is data (95_test_vectors.md section 2.7). The same of the opcode-table words of all seven; that the first
byte of a frame stands in the lowest bits of such a word, and that a word of `nbits` bits is a frame of that many bits, is
the model's choice, log entry 8. -/
def Obligations.OpcodeMapFramesDecode : Prop :=
  decode [0x01#8] = .command .kgen ∧ decode [0x02#8] = .command (.pad []) ∧
  decode [0x02#8, 0x02#8] = .command (.pad [0x02#8]) ∧
  decode [0x02#8, 0x61#8, 0x62#8, 0x63#8] = .command (.pad [0x61#8, 0x62#8, 0x63#8]) ∧
  decode [0x03#8] = .command .hinit ∧ decode [0x04#8] = .command .compress ∧
  decode [0x05#8] = .command .unpack ∧ decode [0x06#8] = .command .status ∧
  decode [0x07#8] = .command .reset ∧
  decodeTableWord 8 0x01 = some .kgen ∧ decodeTableWord 8 0x02 = some (.pad []) ∧
  decodeTableWord 32 0x63626102 = some (.pad [0x61#8, 0x62#8, 0x63#8]) ∧
  decodeTableWord 8 0x03 = some .hinit ∧ decodeTableWord 8 0x04 = some .compress ∧
  decodeTableWord 8 0x05 = some .unpack ∧ decodeTableWord 8 0x06 = some .status ∧
  decodeTableWord 8 0x07 = some .reset ∧ decodeTableWord 8 0x08 = none ∧ decodeTableWord 16 0x0001 = none

/-- 30_encoding.md R83: the decoder's decision list, line by line, and what `Invalid` executes as. -/
def Obligations.DecoderFollowsItsDecisionList : Prop :=
  (∃ why, decode [] = .invalid why) ∧
  (∀ (op : Byte) (p : List Byte),
    (op = 0x02#8 → decode (op :: p) = .command (.pad p)) ∧
    (op ≠ 0x02#8 → p ≠ [] → ∃ why, decode (op :: p) = .invalid why) ∧
    (op = 0x01#8 → decode [op] = .command .kgen) ∧
    (op = 0x03#8 → decode [op] = .command .hinit) ∧
    (op = 0x04#8 → decode [op] = .command .compress) ∧
    (op = 0x05#8 → decode [op] = .command .unpack) ∧
    (op = 0x06#8 → decode [op] = .command .status) ∧
    (op = 0x07#8 → decode [op] = .command .reset) ∧
    (op = 0x00#8 ∨ 0x08 ≤ op.toNat → ∃ why, decode [op] = .invalid why)) ∧
  ∀ (f : Frame) (why : Invalid) (s : State),
    decode f = .invalid why → runFrame f s = .next (s.reject .invalidArgument)

/-- 30_encoding.md R71, R83: decoding the frame of a command gives the command back with its whole operand, and every
frame that decodes is the frame of the command it decodes to; so no two frames stand for one command. -/
def Obligations.DecodeAndEncodeAgree : Prop :=
  (∀ i : Instr, decode (encode i) = .command i) ∧
  ∀ (f : Frame) (i : Instr), decode f = .command i → encode i = f

/-- 30_encoding.md R82: a frame is not a well-formed command in exactly three cases, and each is rejected with
INVALID_ARGUMENT. -/
def Obligations.IllFormedFramesAreRejected : Prop :=
  ∀ f : Frame,
    (((f = [] ∨ (∃ op p, f = op :: p ∧ (op = 0x00#8 ∨ 0x08 ≤ op.toNat)) ∨
      ∃ op p, f = op :: p ∧ p ≠ [] ∧ op ∈ [0x01#8, 0x03#8, 0x04#8, 0x05#8, 0x06#8, 0x07#8]) ↔
      ∀ i, decode f ≠ .command i)) ∧
    ∀ (s : State) (e : Nat) (rest : List Input),
      s.inbox = .frame e f :: rest → e < s.engines.length → (∀ i, decode f ≠ .command i) →
      ∃ t, step s = .next t ∧ RejectedWith .invalidArgument (s.onEngine e rest) t

/-- 20_memory.md R60, 30_encoding.md R83: when the oldest frame delivered is for an engine the system has and decodes to
a command, a step is that command's meaning, on that engine, with the frame taken out of `inbox`. -/
def Obligations.StepRunsTheDecodedCommand : Prop :=
  ∀ (s : State) (e : Nat) (f : Frame) (rest : List Input) (i : Instr),
    s.inbox = .frame e f :: rest → e < s.engines.length → decode f = .command i →
    step s = exec i (s.onEngine e rest)

/-- Log entry 8: a step from a state in which an opcode-table word was placed runs the command the word decodes to. -/
def Obligations.PlacedTableWordIsTheNextCommand : Prop :=
  ∀ (s : State) (nbits w : Nat) (i : Instr),
    s.cur < s.engines.length → decodeTableWord nbits w = some i →
    step (s.withFetchWord nbits w) = exec i s

/-- 60_exceptions.md R210: with nothing delivered the machine holds its state. -/
def Obligations.IdleMachineHoldsItsState : Prop :=
  ∀ s : State, s.inbox = [] → step s = .next s

/-- Log entry 5 (the model's choice): a frame on a transport no engine has stops the machine by name. -/
def Obligations.FrameForAnAbsentEngineFaults : Prop :=
  ∀ (s : State) (e : Nat) (f : Frame) (rest : List Input),
    s.inbox = .frame e f :: rest → s.engines.length ≤ e → step s = .fault (.noSuchEngine e)

/-- 60_exceptions.md R206, 70_reset_and_hazards.md R220, R221: the reset input puts all engines and all tables in the
state after reset, the commands in progress are abandoned without a response, and later frames are executed normally.
That the boundary to the host (`inbox`, `outbox`, `cur`) stays is the model's form, log entries 3 and 6; that `K` (unless
preloaded), `H`, `W` and `a..h` then hold the words `Config.novalue`, the same at every reset, is the model's choice, log
entry 2. -/
def Obligations.ResetInputResetsTheWholeSystem : Prop :=
  ∀ (s : State) (abandoned : List (Nat × Frame)) (rest : List Input),
    s.inbox = .resetInput abandoned :: rest →
    step s = .next { State.resetWith s.params with cur := s.cur, inbox := rest, outbox := s.outbox }

/-- 30_encoding.md R72: every command frame, valid or not, is answered by exactly one response frame, in the format of
R81 if the command executed and of one byte if it was rejected. -/
def Obligations.EveryFrameIsAnsweredOnce : Prop :=
  ∀ (s : State) (e : Nat) (f : Frame) (rest : List Input),
    s.inbox = .frame e f :: rest → e < s.engines.length →
    ∃ t c payload, step s = .next t ∧ t.outbox = s.outbox ++ [{ engine := e, bytes := Code.byte c :: payload }] ∧
      (c ≠ .ok → payload = []) ∧
      (c = .ok → ∃ i, decode f = .command i ∧ payload.length = i.respFormat.payloadBytes)

/-- 60_exceptions.md R198: the tests are made in a fixed order, and the first that fails decides the one code reported. -/
def Obligations.FirstFailingTestDecidesTheCode : Prop :=
  ∀ (s : State) (e : Nat) (f : Frame) (rest : List Input),
    s.inbox = .frame e f :: rest → e < s.engines.length →
    ∃ t c payload, step s = .next t ∧ t.outbox = s.outbox ++ [{ engine := e, bytes := Code.byte c :: payload }] ∧
      c = (match decode f with
        | .invalid _ => .invalidArgument
        | .command (.pad msg) =>
          match s.params.msgCap with
          | none => .ok
          | some cap => if msg.length ≤ cap then .ok else .invalidArgument
        | .command .compress =>
          if (s.onEngine e rest).tbl.KV = false then .notReady
          else if (s.onEngine e rest).eng.HV = false then .notReady
          else if (s.onEngine e rest).eng.BP < (s.onEngine e rest).eng.NB then .ok
          else .sequence
        | .command .unpack => if (s.onEngine e rest).eng.HV = false then .notReady else .ok
        | .command .kgen => .ok
        | .command .hinit => .ok
        | .command .status => .ok
        | .command .reset => .ok : Code)

/-- 60_exceptions.md R190: a frame answered with a code other than OK changed no storage and no counter, set
`ERR <- 1` and `ECODE <- code`, and was answered by the code alone. -/
def Obligations.RejectionChangesOnlyErrAndEcode : Prop :=
  ∀ (s t : State) (e : Nat) (f : Frame) (rest : List Input) (c : Code) (payload : List Byte),
    s.inbox = .frame e f :: rest → e < s.engines.length → step s = .next t →
    t.outbox = s.outbox ++ [{ engine := e, bytes := c.byte :: payload }] → c ≠ .ok →
    RejectedWith c (s.onEngine e rest) t

/-- 10_state.md R38: a command that executes does not change `ERR` or `ECODE`, but for RESET. -/
def Obligations.ExecutedCommandKeepsErrAndEcode : Prop :=
  ∀ (s t : State) (i : Instr) (payload : List Byte),
    i ≠ .reset → exec i s = .next t → Answers s t (Code.byte .ok :: payload) →
    t.eng.ERR = s.eng.ERR ∧ t.eng.ECODE = s.eng.ECODE

/-- 20_memory.md R52: which command reaches which storage; no other write exists. -/
def Obligations.EachStorageHasItsWriters : Prop :=
  ∀ (s t : State) (i : Instr), exec i s = .next t →
    (t.tables ≠ s.tables → i = .kgen ∨ i = .reset) ∧
    (t.eng.H ≠ s.eng.H → i = .hinit ∨ i = .compress ∨ i = .reset) ∧
    (t.eng.HV ≠ s.eng.HV → i = .hinit ∨ i = .reset) ∧
    (t.eng.W ≠ s.eng.W → i = .compress ∨ i = .reset) ∧
    (t.eng.wv ≠ s.eng.wv → i = .compress ∨ i = .reset) ∧
    (t.eng.M ≠ s.eng.M → (∃ msg, i = .pad msg) ∨ i = .reset) ∧
    (t.eng.NB ≠ s.eng.NB → (∃ msg, i = .pad msg) ∨ i = .reset) ∧
    (t.eng.BP ≠ s.eng.BP → (∃ msg, i = .pad msg) ∨ i = .compress ∨ i = .reset)

/-- 60_exceptions.md R203, R207: a command touches only the engine that received it and the table that engine reads. -/
def Obligations.CommandTouchesOnlyItsOwnEngine : Prop :=
  ∀ (s t : State) (i : Instr), exec i s = .next t → OthersKept s t

/-! ### The constant generator -/

/-- 40_constant_generator.md R99: KGEN while `KV = 0` fills the table with the 64 values of R98, sets `KV`, and changes
nothing else. -/
def Obligations.KgenFillsTheTable : Prop :=
  ∀ s : State, s.Selected → s.tbl.KV = false →
    ∃ t, exec .kgen s = .next t ∧ t.tbl = { K := roundTable, KV := true } ∧ t.engines = s.engines ∧
      OthersKept s t ∧ Answers s t [0x00#8]

/-- 40_constant_generator.md R100: KGEN when `KV = 1` changes no state and responds OK. -/
def Obligations.KgenWithAValidTableChangesNothing : Prop :=
  ∀ s : State, s.tbl.KV = true →
    exec .kgen s = .next { s with outbox := s.outbox ++ [{ engine := s.cur, bytes := [0x00#8] }] }

/-- 10_state.md R22: while `KV = 1` no command but RESET changes any table. -/
def Obligations.ValidTableIsNeverMutated : Prop :=
  ∀ (s t : State) (i : Instr), s.tbl.KV = true → i ≠ .reset → exec i s = .next t → t.tables = s.tables

/-- 40_constant_generator.md R91: a number passes the test exactly when no `d` from 2 to `floor(sqrt(n))` inclusive
divides it (so 0 and 1 pass), and `floor(sqrt(n))` is the largest `s` with `s*s <= n`. -/
def Obligations.TrialDivisionTest : Prop :=
  (∀ n : Nat, isqrt n * isqrt n ≤ n ∧ n < (isqrt n + 1) * (isqrt n + 1)) ∧
  ∀ n : Nat, isprime n = true ↔ ∀ d, 2 ≤ d → d * d ≤ n → n % d ≠ 0

/-- 40_constant_generator.md R92: from 2 on, where the scan starts, the test accepts exactly the prime numbers, and the
scan of `fuel` candidates from `n` on gives the first `need` prime numbers among them, in increasing order: it keeps nothing
else and loses none. -/
def Obligations.ScanKeepsExactlyThePrimes : Prop :=
  (∀ n : Nat, 2 ≤ n → (isprime n = true ↔ Nat.Prime n)) ∧
  ∀ fuel n need : Nat, 2 ≤ n →
    scanPrimes fuel n need = ((List.range' n fuel).filter fun m => decide (Nat.Prime m)).take need

/-- 40_constant_generator.md R97, R98: the primes the scan finds and the table the generator computes are the ones the
spec prints. -/
def Obligations.GeneratorGivesThePrintedTable : Prop :=
  primes64 =
    [2, 3, 5, 7, 11, 13, 17, 19, 23, 29, 31, 37, 41, 43, 47, 53] ++
    [59, 61, 67, 71, 73, 79, 83, 89, 97, 101, 103, 107, 109, 113, 127, 131] ++
    [137, 139, 149, 151, 157, 163, 167, 173, 179, 181, 191, 193, 197, 199, 211, 223] ++
    [227, 229, 233, 239, 241, 251, 257, 263, 269, 271, 277, 281, 283, 293, 307, 311] ∧
  generatedTable = roundTable

/-- 40_constant_generator.md R95: `icbrt(x)` is the largest natural `r` with `r*r*r <= x`, and entry `i` of the table is
`icbrt(p_i * 2^96) mod 2^32`. -/
def Obligations.IntegerCubeRootForm : Prop :=
  (∀ x : Nat, icbrt x ^ 3 ≤ x ∧ ∀ r : Nat, r ^ 3 ≤ x → r ≤ icbrt x) ∧
  ∀ i : Nat, i < 64 → ∃ p, primes64[i]? = some p ∧
    (generatedTable.toList[i]?).map BitVec.toNat = some (icbrt (p * 2 ^ 96) % 2 ^ 32)

/-- 40_constant_generator.md R94: over the real numbers, an entry is `floor(frac(p^(1/3)) * 2^32)`, for every natural
`p`; entry `i` of the table is that value of the prime `p_i`, and the floor is below `2^32`. -/
def Obligations.ConstantIsTheFractionOfTheRealCubeRoot : Prop :=
  (∀ p : Nat, (roundConstant p).toNat = ⌊Int.fract ((p : ℝ) ^ ((1 : ℝ) / 3)) * 2 ^ 32⌋₊ ∧
    ⌊Int.fract ((p : ℝ) ^ ((1 : ℝ) / 3)) * 2 ^ 32⌋₊ < 2 ^ 32) ∧
  ∀ i : Nat, i < 64 → ∃ p, primes64[i]? = some p ∧
    (generatedTable.toList[i]?).map BitVec.toNat = some ⌊Int.fract ((p : ℝ) ^ ((1 : ℝ) / 3)) * 2 ^ 32⌋₊

/-! ### The codec -/

/-- 41_codec.md R110: the number of words, and each word from its four bytes, absent bytes contributing 0. -/
def Obligations.BytesToWordsPacksBigEndian : Prop :=
  ∀ bs : List Byte, (b2w bs).length = (bs.length + 3) / 4 ∧
    ∀ j, j < (b2w bs).length → ((b2w bs)[j]?).map BitVec.toNat =
      some ((bs.getD (4 * j) 0).toNat * 2 ^ 24 + (bs.getD (4 * j + 1) 0).toNat * 2 ^ 16 +
        (bs.getD (4 * j + 2) 0).toNat * 2 ^ 8 + (bs.getD (4 * j + 3) 0).toNat)

/-- 41_codec.md R112: the number of bytes, and byte `4j + k` is bits `31-8k` down to `24-8k` of word `j`. -/
def Obligations.WordsToBytesUnpacksBigEndian : Prop :=
  ∀ ws : List Word, (w2b ws).length = 4 * ws.length ∧
    ∀ (j k : Nat) (w : Word), ws[j]? = some w → k < 4 →
      (w2b ws)[4 * j + k]? = some (BitVec.ofNat 8 (w.toNat / 2 ^ (24 - 8 * k)))

/-- 41_codec.md R113: the codec's laws. -/
def Obligations.CodecRoundTrips : Prop :=
  (∀ ws : List Word, b2w (w2b ws) = ws) ∧
  ∀ bs : List Byte, w2b (b2w bs) = bs ++ List.replicate (4 * ((bs.length + 3) / 4) - bs.length) 0x00#8

/-- 41_codec.md R115: the padded message at bit level: the message, a single 1 bit, the least number of 0 bits that makes
the length 448 modulo 512, and the 64 bits of the length field. -/
def Obligations.PaddingAtBitLevel : Prop :=
  ∀ (mode : LenMode) (msg : List Byte),
    ∃ k, bitsOf (padbytes mode msg) =
        bitsOf msg ++ [true] ++ List.replicate k false ++ bitsOf (lenfield mode msg.length) ∧
      (8 * msg.length + 1 + k) % 512 = 448 ∧ (∀ k', (8 * msg.length + 1 + k') % 512 = 448 → k ≤ k') ∧
      (bitsOf (lenfield mode msg.length)).length = 64

/-- 41_codec.md R117: the length field in both settings of `LEN_MODE`; below `2^29` bytes the two are the same, and below
`2^61` bytes `full64` is the 64-bit big-endian `L`. That the two differ is stated from `2^29` to below `2^61` bytes, not for
every `n >= 2^29` as R117's sentence says: from `2^61` on the model follows R117's formulas, which can agree there, log
entry 9 (DEDUCED). -/
def Obligations.LengthFieldOfBothModes : Prop :=
  ∀ n : Nat,
    lenfield .trunc32 n = w2b [0x00000000#32, BitVec.ofNat 32 (8 * n % 2 ^ 32)] ∧
    lenfield .full64 n = w2b [BitVec.ofNat 32 (8 * n / 2 ^ 32 % 2 ^ 32), BitVec.ofNat 32 (8 * n % 2 ^ 32)] ∧
    (n < 2 ^ 29 → lenfield .full64 n = lenfield .trunc32 n) ∧
    (2 ^ 29 ≤ n → n < 2 ^ 61 → lenfield .full64 n ≠ lenfield .trunc32 n) ∧
    (n < 2 ^ 61 → ∃ hi lo : Word, lenfield .full64 n = w2b [hi, lo] ∧ hi.toNat * 2 ^ 32 + lo.toNat = 8 * n)

/-- 41_codec.md R119: the number of blocks, and how much padding adds. -/
def Obligations.PaddedLengthIsWholeBlocks : Prop :=
  ∀ (mode : LenMode) (msg : List Byte),
    (padbytes mode msg).length % 64 = 0 ∧
    (padbytes mode msg).length / 64 = (msg.length + 8) / 64 + 1 ∧
    msg.length + 9 ≤ (padbytes mode msg).length ∧ (padbytes mode msg).length ≤ msg.length + 72 ∧
    (padwords mode msg).length = 16 * ((msg.length + 8) / 64 + 1)

/-- 30_encoding.md R76: the padded message word by word. -/
def Obligations.PaddedMessageWordByWord : Prop :=
  ∀ (mode : LenMode) (msg : List Byte) (j : Nat),
    (j < msg.length / 4 → (padwords mode msg)[j]? = (b2w msg)[j]?) ∧
    (j = msg.length / 4 → (padwords mode msg)[j]? =
      (b2w (msg.drop (4 * (msg.length / 4)) ++ [0x80#8]))[0]?) ∧
    (msg.length / 4 < j → j < 16 * ((msg.length + 8) / 64 + 1) - 2 → (padwords mode msg)[j]? = some 0x00000000#32) ∧
    (padwords mode msg).drop (16 * ((msg.length + 8) / 64 + 1) - 2) = b2w (lenfield mode msg.length)

/-- 41_codec.md R120: PAD loads the padded words, `NB` and `BP = 0`, and touches nothing else. -/
def Obligations.PadLoadsThePaddedMessage : Prop :=
  ∀ (s : State) (msg : List Byte),
    s.cur < s.engines.length → (∀ cap, s.params.msgCap = some cap → msg.length ≤ cap) →
    ∃ t, exec (.pad msg) s = .next t ∧
      t.eng = { s.eng with M := padwords s.params.lenMode msg, NB := (msg.length + 8) / 64 + 1, BP := 0 } ∧
      t.tables = s.tables ∧ OthersKept s t ∧ Answers s t [0x00#8]

/-- 41_codec.md R120: a message longer than `MSG_CAP` is rejected with INVALID_ARGUMENT. -/
def Obligations.PadRejectsAnOverlongMessage : Prop :=
  ∀ (s : State) (msg : List Byte) (cap : Nat),
    s.cur < s.engines.length → s.params.msgCap = some cap → cap < msg.length →
    ∃ t, exec (.pad msg) s = .next t ∧ RejectedWith .invalidArgument s t

/-- 41_codec.md R122, 20_memory.md R56: UNPACK answers with the 32 bytes of `H`, word 0 first, most significant byte
first, and changes no state. -/
def Obligations.UnpackReturnsTheHashState : Prop :=
  ∀ s : State, s.eng.HV = true →
    ∃ out : List Byte, out.length = 32 ∧
      (∀ (i k : Nat) (w : Word), s.eng.H.toList[i]? = some w → k < 4 →
        out[4 * i + k]? = some (BitVec.ofNat 8 (w.toNat / 2 ^ (24 - 8 * k)))) ∧
      exec .unpack s = .next { s with outbox := s.outbox ++ [{ engine := s.cur, bytes := 0x00#8 :: out }] }

/-- 41_codec.md R122: UNPACK while `HV = 0` is rejected with NOT_READY. -/
def Obligations.UnpackBeforeHinitIsNotReady : Prop :=
  ∀ s : State, s.cur < s.engines.length → s.eng.HV = false →
    ∃ t, exec .unpack s = .next t ∧ RejectedWith .notReady s t

/-! ### The compression engine -/

/-- 42_compression.md R134: the rotate's formula, and bit `i` of the result is bit `(i + n) mod 32` of `x`. -/
def Obligations.RotrMovesEveryBit : Prop :=
  ∀ (x : Word) (n : Nat), 1 ≤ n → n ≤ 31 →
    (rotr x n).toNat = (x.toNat / 2 ^ n + x.toNat % 2 ^ n * 2 ^ (32 - n)) % 2 ^ 32 ∧
    ∀ i, i < 32 → (rotr x n).getLsbD i = x.getLsbD ((i + n) % 32)

/-- 42_compression.md R135: the shift is logical. -/
def Obligations.ShrIsALogicalShift : Prop :=
  ∀ (x : Word) (n : Nat), 1 ≤ n → n ≤ 31 →
    (shr x n).toNat = x.toNat / 2 ^ n ∧
    ∀ i, i < 32 → (shr x n).getLsbD i = if i + n ≤ 31 then x.getLsbD (i + n) else false

/-- 42_compression.md R136, R137: the four mixes, bit by bit. -/
def Obligations.MixesBitByBit : Prop :=
  ∀ (x : Word) (i : Nat), i < 32 →
    (ssig0 x).getLsbD i = ((x.getLsbD ((i + 7) % 32) ^^ x.getLsbD ((i + 18) % 32)) ^^ x.getLsbD (i + 3)) ∧
    (ssig1 x).getLsbD i = ((x.getLsbD ((i + 17) % 32) ^^ x.getLsbD ((i + 19) % 32)) ^^ x.getLsbD (i + 10)) ∧
    (bsig0 x).getLsbD i =
      ((x.getLsbD ((i + 2) % 32) ^^ x.getLsbD ((i + 13) % 32)) ^^ x.getLsbD ((i + 22) % 32)) ∧
    (bsig1 x).getLsbD i =
      ((x.getLsbD ((i + 6) % 32) ^^ x.getLsbD ((i + 11) % 32)) ^^ x.getLsbD ((i + 25) % 32))

/-- 42_compression.md R138: choice takes the bit of `y` or of `z` by the bit of `x`; majority is 1 where at least two of
the three have 1. -/
def Obligations.ChoiceAndMajorityBitByBit : Prop :=
  ∀ (x y z : Word) (i : Nat), i < 32 →
    (ch x y z).getLsbD i = (if x.getLsbD i then y.getLsbD i else z.getLsbD i) ∧
    ((maj x y z).getLsbD i = true ↔
      2 ≤ (x.getLsbD i).toNat + (y.getLsbD i).toNat + (z.getLsbD i).toNat)

/-- 42_compression.md R139: HINIT sets the eight words of the initial value and `HV`, and touches nothing else. -/
def Obligations.HinitSetsTheInitialValue : Prop :=
  ∀ s : State, s.cur < s.engines.length →
    ∃ t, exec .hinit s = .next t ∧
      t.eng = { s.eng with
        H := #v[0x6a09e667#32, 0xbb67ae85#32, 0x3c6ef372#32, 0xa54ff53a#32,
          0x510e527f#32, 0x9b05688c#32, 0x1f83d9ab#32, 0x5be0cd19#32]
        HV := true } ∧
      t.tables = s.tables ∧ OthersKept s t ∧ Answers s t [0x00#8]

/-- 42_compression.md R140, R146: COMPRESS with `KV = 1`, `HV = 1`, `BP < NB` executes: `H` becomes `compress` of the old
`H`, block `BP` and the table, `BP` advances by 1, `W` and `a..h` are scratch, and nothing else changes. -/
def Obligations.CompressProcessesOneBlock : Prop :=
  ∀ s : State, s.cur < s.engines.length → s.tbl.KV = true → s.eng.HV = true → s.eng.BP < s.eng.NB →
    ∃ t, exec .compress s = .next t ∧
      t.eng = { s.eng with
        H := compress s.eng.H (blockAt s.eng.M s.eng.BP) s.tbl.K
        BP := s.eng.BP + 1
        W := t.eng.W
        wv := t.eng.wv } ∧
      t.tables = s.tables ∧ OthersKept s t ∧ Answers s t [0x00#8]

/-- 42_compression.md R141, R142: after a COMPRESS that executed, `W[0..15]` is block `BP` unchanged and every later slot
is the sum of the four terms. -/
def Obligations.CompressBuildsTheSchedule : Prop :=
  ∀ s : State, s.cur < s.engines.length → s.tbl.KV = true → s.eng.HV = true → s.eng.BP < s.eng.NB →
    Memory.wf s.eng.M s.eng.NB = true →
    ∃ t, exec .compress s = .next t ∧
      (∀ j (h : j < 16), s.eng.M[16 * s.eng.BP + j]? = some (t.eng.W[j]'(by omega))) ∧
      ∀ j (_ : 16 ≤ j) (h : j < 64), t.eng.W[j] =
        t.eng.W[j - 16]'(by omega) + ssig0 (t.eng.W[j - 15]'(by omega)) + t.eng.W[j - 7]'(by omega) +
          ssig1 (t.eng.W[j - 2]'(by omega))

/-- 42_compression.md R143, R144, R145: the working variables start as `H`, go through 64 rounds with `K[i]` and `W[i]`,
and are added back into `H`. -/
def Obligations.CompressRunsSixtyFourRounds : Prop :=
  ∀ s : State, s.cur < s.engines.length → s.tbl.KV = true → s.eng.HV = true → s.eng.BP < s.eng.NB →
    ∃ (t : State) (v : Nat → Work), exec .compress s = .next t ∧
      v 0 = { a := s.eng.H[0], b := s.eng.H[1], c := s.eng.H[2], d := s.eng.H[3],
              e := s.eng.H[4], f := s.eng.H[5], g := s.eng.H[6], h := s.eng.H[7] } ∧
      (∀ i (h : i < 64), ∃ t1 t2 : Word,
        t1 = (v i).h + bsig1 (v i).e + ch (v i).e (v i).f (v i).g + s.tbl.K[i] + t.eng.W[i] ∧
        t2 = bsig0 (v i).a + maj (v i).a (v i).b (v i).c ∧
        v (i + 1) = { a := t1 + t2, b := (v i).a, c := (v i).b, d := (v i).c,
                      e := (v i).d + t1, f := (v i).e, g := (v i).f, h := (v i).g }) ∧
      t.eng.wv = v 64 ∧
      t.eng.H = #v[s.eng.H[0] + (v 64).a, s.eng.H[1] + (v 64).b, s.eng.H[2] + (v 64).c, s.eng.H[3] + (v 64).d,
        s.eng.H[4] + (v 64).e, s.eng.H[5] + (v 64).f, s.eng.H[6] + (v 64).g, s.eng.H[7] + (v 64).h]

/-- 42_compression.md R140, R149: COMPRESS without a table or without an initialised hash state is rejected with
NOT_READY, and with no block pending with SEQUENCE; `BP` does not wrap. -/
def Obligations.CompressRejectsWhatItCannotDo : Prop :=
  ∀ s : State, s.cur < s.engines.length →
    (s.tbl.KV = false ∨ s.eng.HV = false → ∃ t, exec .compress s = .next t ∧ RejectedWith .notReady s t) ∧
    (s.tbl.KV = true → s.eng.HV = true → s.eng.NB ≤ s.eng.BP →
      ∃ t, exec .compress s = .next t ∧ RejectedWith .sequence s t)

/-- 10_state.md R26, R27, R42; 70_reset_and_hazards.md R233: what `W` and `a..h` held before a COMPRESS affects nothing,
not even what they hold after it. -/
def Obligations.ScratchBeforeCompressNeverMatters : Prop :=
  ∀ (s : State) (w : Vector Word 64) (v : Work), s.tbl.KV = true → s.eng.HV = true → s.eng.BP < s.eng.NB →
    s.cur < s.engines.length →
    exec .compress (s.setEng { s.eng with W := w, wv := v }) = exec .compress s

/-! ### System commands and reset -/

/-- 43_system_commands.md R160, 10_state.md R36, R40, R41: STATUS answers `00 00 00 xx` with the flags in `xx`, its upper
three bytes 0 in every state, and changes no state. -/
def Obligations.StatusReturnsTheStatusWord : Prop :=
  ∀ s : State, ∃ b : Byte,
    b.toNat = s.tbl.KV.toNat + 2 * s.eng.HV.toNat + 4 * (if s.eng.BP < s.eng.NB then 1 else 0) +
      8 * s.eng.ERR.toNat + 16 * s.eng.ECODE.toNat ∧
    exec .status s = .next { s with
      outbox := s.outbox ++ [{ engine := s.cur, bytes := [0x00#8, 0x00#8, 0x00#8, 0x00#8, b] }] }

/-- 43_system_commands.md R161, 60_exceptions.md R206: RESET gives the engine's flags, counters and message their reset
values, whatever they were, and its table too unless other engines share it. That `H`, `W` and `a..h` are then the words
of `Engine.reset` is the model's choice, log entry 2. -/
def Obligations.ResetCommandResetsItsEngine : Prop :=
  ∀ s : State, s.Selected →
    ∃ t, exec .reset s = .next t ∧
      t.eng = { H := Engine.reset.H, HV := false, W := Engine.reset.W, wv := Engine.reset.wv, M := [], NB := 0,
                BP := 0, ERR := false, ECODE := 0#4 } ∧
      (s.params.kShared = true ∧ 1 < s.params.nEngines → t.tables = s.tables) ∧
      (¬(s.params.kShared = true ∧ 1 < s.params.nEngines) →
        t.tbl.KV = s.params.kPreloaded ∧ (s.params.kPreloaded = true → t.tbl.K = roundTable)) ∧
      OthersKept s t ∧ Answers s t [0x00#8]

/-- 10_state.md R44, R45: the flags, counters, message and status word after reset, for any parameters. -/
def Obligations.ResetValues : Prop :=
  ∀ p : Params,
    (∀ e ∈ (State.resetWith p).engines,
      e.HV = false ∧ e.M = [] ∧ e.NB = 0 ∧ e.BP = 0 ∧ e.ERR = false ∧ e.ECODE = 0#4) ∧
    (∀ t ∈ (State.resetWith p).tables, t.KV = p.kPreloaded ∧ (p.kPreloaded = true → t.K = roundTable)) ∧
    (State.resetWith p).status = if p.kPreloaded then 0x00000001#32 else 0x00000000#32

/-! ### The whole machine -/

/-- The invariant of Safety.lean holds after reset, whatever the parameters (10_state.md R44, R45). -/
def Obligations.InvariantHoldsAfterReset : Prop :=
  State.reset.Inv ∧ ∀ p : Params, 1 ≤ p.nEngines → (State.resetWith p).Inv

/-- Every step keeps the invariant: `BP <= NB` (10_state.md R30), `len(M) = 16*NB` (R28), `NB <= NBMAX` (R29), a valid
table holds the values of 40_constant_generator.md R98 (R22), `ECODE` is 0 to 3 and is 0 exactly while `ERR` is 0
(R37, R38, R41), every response is in a format of 30_encoding.md R72. -/
def Obligations.EveryStepKeepsTheInvariant : Prop :=
  ∀ s t : State, s.Inv → step s = .next t → t.Inv

/-- 20_memory.md R60, 70_reset_and_hazards.md R238, 60_exceptions.md R211: no frame stops the machine; whatever bytes are
delivered to the engines there are, every step has a next state. -/
def Obligations.NoFrameStopsTheMachine : Prop :=
  ∀ s : State, s.Inv → ∃ t, step s = .next t ∧ t.params = s.params

/-- 00_scope.md R14, 10_state.md R42, R46: no rule reads storage that nothing has written. Two states that differ only in
such storage and in scratch take the same steps, give the same responses and stay so. -/
def Obligations.UnwrittenStorageIsNeverRead : Prop :=
  ∀ s s' t : State, s.Alike s' → step s = .next t → ∃ t', step s' = .next t' ∧ t.Alike t'

/-- 10_state.md R23, R25, R37: `ERR`, `HV` and `KV` are cleared only by reset: by the reset input, or by a RESET frame to
that engine (for `KV`, to an engine that reads that table). -/
def Obligations.FlagsAreClearedOnlyByReset : Prop :=
  ∀ (s t : State) (inp : Input) (rest : List Input), s.inbox = inp :: rest → step s = .next t →
    (∀ (j : Nat) (e e' : Engine), s.engines[j]? = some e → t.engines[j]? = some e' →
      (e.ERR = true ∧ e'.ERR = false) ∨ (e.HV = true ∧ e'.HV = false) →
      (∃ a, inp = .resetInput a) ∨ inp = .frame j [0x07#8]) ∧
    ∀ (j : Nat) (u u' : Table), s.tables[j]? = some u → t.tables[j]? = some u' → u.KV = true → u'.KV = false →
      (∃ a, inp = .resetInput a) ∨
      ∃ e, inp = .frame e [0x07#8] ∧ j = (if s.params.kShared then 0 else e) ∧
        ¬(s.params.kShared = true ∧ 1 < s.params.nEngines)

/-- 10_state.md R30, R33, R34: PAD puts the block pointer to 0, a COMPRESS that executes moves it up by exactly 1 and
never past `NB`, RESET puts it to 0, and nothing else moves it. -/
def Obligations.BlockPointerOnlyCountsUp : Prop :=
  ∀ (s t : State) (i : Instr), s.cur < s.engines.length → exec i s = .next t →
    t.eng.BP = s.eng.BP ∨ ((∃ msg, i = .pad msg) ∧ t.eng.BP = 0) ∨
    (i = .compress ∧ s.eng.BP < s.eng.NB ∧ t.eng.BP = s.eng.BP + 1 ∧ t.eng.NB = s.eng.NB) ∨
    (i = .reset ∧ t.eng.BP = 0)

/-- 20_memory.md R67: STATUS and UNPACK change no state unless rejected and repeat their answer; KGEN and HINIT are
idempotent; PAD with the same message is, and puts `BP` to 0 each time. -/
def Obligations.ReadsHaveNoSideEffects : Prop :=
  ∀ (s t u : State) (i : Instr), s.Selected → exec i s = .next t → exec i t = .next u →
    (i = .status ∨ i = .unpack →
      (∃ r, t.outbox = s.outbox ++ [r] ∧ u.outbox = t.outbox ++ [r]) ∧ t.tables = s.tables ∧
      (i = .status ∨ s.eng.HV = true → t.engines = s.engines)) ∧
    (i = .kgen ∨ i = .hinit → u.engines = t.engines ∧ u.tables = t.tables) ∧
    ∀ msg, i = .pad msg → u.engines = t.engines ∧ (WellFormed s.params i = true → u.eng.BP = 0 ∧ t.eng.BP = 0)

/-- 20_memory.md R64, R65; 60_exceptions.md R203, R205: frames for two different engines can be taken in either order:
each engine, each table and the responses of each engine come out the same, provided a shared table was initialised
before. -/
def Obligations.DifferentEnginesDoNotInterfere : Prop :=
  ∀ (s t u : State) (e1 e2 : Nat) (f1 f2 : Frame) (rest : List Input),
    s.Inv → e1 < s.params.nEngines → e2 < s.params.nEngines → e1 ≠ e2 →
    (s.params.kShared = true → ∀ b ∈ s.tables, b.KV = true) →
    RunsTo 2 { s with inbox := .frame e1 f1 :: .frame e2 f2 :: rest } t →
    RunsTo 2 { s with inbox := .frame e2 f2 :: .frame e1 f1 :: rest } u →
    t.engines = u.engines ∧ t.tables = u.tables ∧ t.inbox = u.inbox ∧ ∀ e, t.sentBy e = u.sentBy e

/-! ### Host sequences -/

/-- 45_host_sequences.md R171, 42_compression.md R146, R148: the frames of DIGEST, on an engine whose table is valid and
from any values of everything else, are all answered OK, and the last answer carries
`w2b(fold(compress(., ., K), IV, blocks of padwords(msg)))`. -/
def Obligations.DigestSequenceReturnsTheDigest : Prop :=
  ∀ (s : State) (e : Nat) (msg : List Byte) (rest : List Input),
    e < s.engines.length → (s.onEngine e rest).tbl.KV = true →
    (∀ cap, s.params.msgCap = some cap → msg.length ≤ cap) →
    ∃ t, RunsTo (blocksOf msg.length + 3) { s with inbox := (digestFrames msg).map (.frame e) ++ rest } t ∧
      t.sentBy e = s.sentBy e ++ List.replicate (blocksOf msg.length + 2) [0x00#8] ++
        [0x00#8 :: digestOf s.params.lenMode (s.onEngine e rest).tbl.K msg] ∧
      t.eng.HV = true ∧ t.eng.BP = t.eng.NB ∧ t.eng.NB = (msg.length + 8) / 64 + 1 ∧
      t.eng.H = hashOf s.params.lenMode (s.onEngine e rest).tbl.K msg ∧
      t.eng.ERR = (s.onEngine e rest).eng.ERR ∧ t.inbox = rest

/-- 45_host_sequences.md R173, R174: the frames of DIGEST2, the second message being the 32 bytes the first UNPACK
returned, end with `DIGEST(DIGEST(msg))`. -/
def Obligations.DoubleDigestIsTheDigestOfTheDigest : Prop :=
  ∀ (s : State) (e : Nat) (msg d1 : List Byte),
    e < s.engines.length → (s.onEngine e []).tbl.KV = true →
    (∀ cap, s.params.msgCap = some cap → msg.length ≤ cap ∧ 32 ≤ cap) →
    d1 = digestOf s.params.lenMode (s.onEngine e []).tbl.K msg →
    ∃ t, RunsTo (blocksOf msg.length + 7) { s with inbox := (digest2Frames msg d1).map (.frame e) } t ∧
      (t.sentBy e).getLast? = some (0x00#8 :: digestOf s.params.lenMode (s.onEngine e []).tbl.K d1)

/-- 45_host_sequences.md R170: RUN by a polling host, with `KV = 1` and `HV = 1`, ends with `BP = NB` and `ERR` as
before, after two responses (STATUS, COMPRESS) for each block that was pending and one more. -/
def Obligations.RunEndsWithNoBlockPending : Prop :=
  ∀ (s : State) (n : Nat),
    s.cur < s.engines.length → s.tbl.KV = true → s.eng.HV = true → s.eng.BP ≤ s.eng.NB →
    s.eng.NB - s.eng.BP < n →
    ∃ t, hostRun s.cur n s = .next t ∧ t.eng.BP = t.eng.NB ∧ t.eng.NB = s.eng.NB ∧ t.eng.ERR = s.eng.ERR ∧
      t.outbox.length = s.outbox.length + 2 * (s.eng.NB - s.eng.BP) + 1

/-- 45_host_sequences.md R176: the host's hexadecimal form has two characters a byte, the most significant nibble first,
each a digit of `0123456789abcdef`; the default output of `format` is the hexadecimal form of what it gives with
`asBytes`. -/
def Obligations.HexFormatOfTheDigest : Prop :=
  ∀ d : List Byte, (hex d).length = 2 * d.length ∧
    (∀ (i : Nat) (b : Byte), d[i]? = some b →
      (hex d)[2 * i]? = ['0', '1', '2', '3', '4', '5', '6', '7', '8', '9', 'a', 'b', 'c', 'd', 'e', 'f'][b.toNat / 16]? ∧
      (hex d)[2 * i + 1]? =
        ['0', '1', '2', '3', '4', '5', '6', '7', '8', '9', 'a', 'b', 'c', 'd', 'e', 'f'][b.toNat % 16]?) ∧
    format d { asBytes := true } = .bytes d ∧ format d {} = .text (hex d)

/-- 45_host_sequences.md R181, R175: the host library's `sha256` of bytes or of text, whatever a text is and whatever its
encoder, is the formatted digest the machine returns to the DIGEST frames of the encoded message, `sha256.x2` the formatted
one it returns to the DIGEST2 frames, and `x2` is `sha256` of the raw bytes of the first digest (R174). The options default
to false; `asBytes` takes precedence and gives the 32 bytes, `asString` one character a byte with the byte as its code, and
neither the hexadecimal form. A value of another type is refused (R180). -/
def Obligations.LibraryDigestIsTheFormattedDigest : Prop :=
  (∀ d : List Byte,
    (∀ b : Bool, format d { asBytes := true, asString := b } = .bytes d) ∧
    (∃ cs : List Char, format d { asString := true } = .text cs ∧ cs.map Char.toNat = d.map BitVec.toNat) ∧
    format d { asBytes := false, asString := false } = .text (hex d) ∧
    ({} : OutputOptions) = { asBytes := false, asString := false }) ∧
  ∀ (τ : Type) (encoder : τ → List Byte) (mode : LenMode) (opts : OutputOptions),
    libraryDigest mode encoder .other opts = none ∧ libraryDigest2 mode encoder .other opts = none ∧
    ∀ (m : Message τ) (msg : List Byte),
      m = .bytes msg ∨ (∃ x, m = .text x ∧ encoder x = msg) →
      ∃ d1 d2 : List Byte, d1.length = 32 ∧ d2.length = 32 ∧
        libraryDigest mode encoder m { asBytes := true } = some (.bytes d1) ∧
        libraryDigest mode encoder m opts = some (format d1 opts) ∧
        libraryDigest2 mode encoder m opts = some (format d2 opts) ∧
        libraryDigest2 mode encoder m opts = libraryDigest mode encoder (.bytes d1) opts ∧
        ∀ (s : State) (e : Nat), e < s.engines.length → s.params.lenMode = mode →
          (s.onEngine e []).tbl = { K := roundTable, KV := true } →
          (∀ cap, s.params.msgCap = some cap → msg.length ≤ cap) →
          (∃ t, RunsTo (blocksOf msg.length + 3) { s with inbox := (digestFrames msg).map (.frame e) } t ∧
            (t.sentBy e).getLast? = some (0x00#8 :: d1)) ∧
          ((∀ cap, s.params.msgCap = some cap → 32 ≤ cap) →
            ∃ t, RunsTo (blocksOf msg.length + 7) { s with inbox := (digest2Frames msg d1).map (.frame e) } t ∧
              (t.sentBy e).getLast? = some (0x00#8 :: d2))
end

