-- ==== Sys2Proof/Laws/State.lean ====
section
/-! SUPPORT. One lemma per field per update, each true by rfl, so that no later proof unfolds a record update. -/

namespace Sys2Proof.Machine

/-! `setTbl` -/
@[simp] theorem setTbl_params (s : State) (t : Table) : (s.setTbl t).params = s.params := rfl
@[simp] theorem setTbl_tables (s : State) (t : Table) : (s.setTbl t).tables = s.tables.set s.tableIndex t := rfl
@[simp] theorem setTbl_engines (s : State) (t : Table) : (s.setTbl t).engines = s.engines := rfl
@[simp] theorem setTbl_cur (s : State) (t : Table) : (s.setTbl t).cur = s.cur := rfl
@[simp] theorem setTbl_inbox (s : State) (t : Table) : (s.setTbl t).inbox = s.inbox := rfl
@[simp] theorem setTbl_outbox (s : State) (t : Table) : (s.setTbl t).outbox = s.outbox := rfl
@[simp] theorem setTbl_tableIndex (s : State) (t : Table) : (s.setTbl t).tableIndex = s.tableIndex := rfl
@[simp] theorem setTbl_eng (s : State) (t : Table) : (s.setTbl t).eng = s.eng := rfl

/-! `setEng` -/
@[simp] theorem setEng_params (s : State) (e : Engine) : (s.setEng e).params = s.params := rfl
@[simp] theorem setEng_tables (s : State) (e : Engine) : (s.setEng e).tables = s.tables := rfl
@[simp] theorem setEng_engines (s : State) (e : Engine) : (s.setEng e).engines = s.engines.set s.cur e := rfl
@[simp] theorem setEng_cur (s : State) (e : Engine) : (s.setEng e).cur = s.cur := rfl
@[simp] theorem setEng_inbox (s : State) (e : Engine) : (s.setEng e).inbox = s.inbox := rfl
@[simp] theorem setEng_outbox (s : State) (e : Engine) : (s.setEng e).outbox = s.outbox := rfl
@[simp] theorem setEng_tableIndex (s : State) (e : Engine) : (s.setEng e).tableIndex = s.tableIndex := rfl
@[simp] theorem setEng_tbl (s : State) (e : Engine) : (s.setEng e).tbl = s.tbl := rfl
@[simp] theorem setEng_tableIsShared (s : State) (e : Engine) : (s.setEng e).tableIsShared = s.tableIsShared := rfl

/-! `send` -/
@[simp] theorem send_params (s : State) (c : Code) (p : List Byte) : (s.send c p).params = s.params := rfl
@[simp] theorem send_tables (s : State) (c : Code) (p : List Byte) : (s.send c p).tables = s.tables := rfl
@[simp] theorem send_engines (s : State) (c : Code) (p : List Byte) : (s.send c p).engines = s.engines := rfl
@[simp] theorem send_cur (s : State) (c : Code) (p : List Byte) : (s.send c p).cur = s.cur := rfl
@[simp] theorem send_inbox (s : State) (c : Code) (p : List Byte) : (s.send c p).inbox = s.inbox := rfl
@[simp] theorem send_outbox (s : State) (c : Code) (p : List Byte) :
    (s.send c p).outbox = s.outbox ++ [{ engine := s.cur, bytes := c.byte :: p }] := rfl
@[simp] theorem send_tableIndex (s : State) (c : Code) (p : List Byte) : (s.send c p).tableIndex = s.tableIndex := rfl
@[simp] theorem send_eng (s : State) (c : Code) (p : List Byte) : (s.send c p).eng = s.eng := rfl
@[simp] theorem send_tbl (s : State) (c : Code) (p : List Byte) : (s.send c p).tbl = s.tbl := rfl

/-! `respondOk` is `send` with OK -/
@[simp] theorem respondOk_eq (s : State) (p : List Byte) : s.respondOk p = s.send .ok p := rfl

/-! `reject` -/
@[simp] theorem reject_params (s : State) (c : Code) : (s.reject c).params = s.params := rfl
@[simp] theorem reject_tables (s : State) (c : Code) : (s.reject c).tables = s.tables := rfl
@[simp] theorem reject_engines (s : State) (c : Code) :
    (s.reject c).engines = s.engines.set s.cur { s.eng with ERR := true, ECODE := c.ecode } := rfl
@[simp] theorem reject_cur (s : State) (c : Code) : (s.reject c).cur = s.cur := rfl
@[simp] theorem reject_inbox (s : State) (c : Code) : (s.reject c).inbox = s.inbox := rfl
@[simp] theorem reject_outbox (s : State) (c : Code) :
    (s.reject c).outbox = s.outbox ++ [{ engine := s.cur, bytes := [c.byte] }] := rfl
@[simp] theorem reject_tableIndex (s : State) (c : Code) : (s.reject c).tableIndex = s.tableIndex := rfl
@[simp] theorem reject_tbl (s : State) (c : Code) : (s.reject c).tbl = s.tbl := rfl

/-! `resetAll` -/
@[simp] theorem resetAll_params (s : State) : s.resetAll.params = s.params := rfl
@[simp] theorem resetAll_tables (s : State) :
    s.resetAll.tables = List.replicate (Params.nTables s.params) (Table.reset s.params) := rfl
@[simp] theorem resetAll_engines (s : State) :
    s.resetAll.engines = List.replicate s.params.nEngines Engine.reset := rfl
@[simp] theorem resetAll_cur (s : State) : s.resetAll.cur = s.cur := rfl
@[simp] theorem resetAll_inbox (s : State) : s.resetAll.inbox = s.inbox := rfl
@[simp] theorem resetAll_outbox (s : State) : s.resetAll.outbox = s.outbox := rfl

/-! `onEngine` -/
@[simp] theorem onEngine_params (s : State) (e : Nat) (r : List Input) : (s.onEngine e r).params = s.params := rfl
@[simp] theorem onEngine_tables (s : State) (e : Nat) (r : List Input) : (s.onEngine e r).tables = s.tables := rfl
@[simp] theorem onEngine_engines (s : State) (e : Nat) (r : List Input) : (s.onEngine e r).engines = s.engines := rfl
@[simp] theorem onEngine_cur (s : State) (e : Nat) (r : List Input) : (s.onEngine e r).cur = e := rfl
@[simp] theorem onEngine_inbox (s : State) (e : Nat) (r : List Input) : (s.onEngine e r).inbox = r := rfl
@[simp] theorem onEngine_outbox (s : State) (e : Nat) (r : List Input) : (s.onEngine e r).outbox = s.outbox := rfl

/-! `compressBlock` -/
@[simp] theorem compressBlock_HV (k : Vector Word 64) (e : Engine) : (compressBlock k e).HV = e.HV := rfl
@[simp] theorem compressBlock_M (k : Vector Word 64) (e : Engine) : (compressBlock k e).M = e.M := rfl
@[simp] theorem compressBlock_NB (k : Vector Word 64) (e : Engine) : (compressBlock k e).NB = e.NB := rfl
@[simp] theorem compressBlock_BP (k : Vector Word 64) (e : Engine) : (compressBlock k e).BP = e.BP + 1 := rfl
@[simp] theorem compressBlock_ERR (k : Vector Word 64) (e : Engine) : (compressBlock k e).ERR = e.ERR := rfl
@[simp] theorem compressBlock_ECODE (k : Vector Word 64) (e : Engine) : (compressBlock k e).ECODE = e.ECODE := rfl

/-! What the constants of the reset state hold -/
@[simp] theorem engineReset_HV : Engine.reset.HV = false := rfl
@[simp] theorem engineReset_M : Engine.reset.M = [] := rfl
@[simp] theorem engineReset_NB : Engine.reset.NB = 0 := rfl
@[simp] theorem engineReset_BP : Engine.reset.BP = 0 := rfl
@[simp] theorem engineReset_ERR : Engine.reset.ERR = false := rfl
@[simp] theorem engineReset_ECODE : Engine.reset.ECODE = 0#4 := rfl

end Sys2Proof.Machine
end

