-- ==== Sys2Proof/Laws/Ops.lean ====
section
/-! SUPPORT. One lemma for each shared operation, to be cited instead of unfolding it. -/

namespace Sys2Proof.Machine

/-! ### Words of a space -/

theorem rd_eq {n : Nat} (sp : Space) (v : Vector Word n) (i : Nat) (h : i < n) : rd sp v i = v[i] := by
  simp [rd, List.getD_eq_getElem?_getD, h]

theorem rd_wr_same {n : Nat} (sp : Space) (v : Vector Word n) (i : Nat) (x : Word) (h : i < n) :
    rd sp (wr v i x) i = x := by
  rw [rd_eq _ _ _ h]; simp [wr]

theorem rd_wr_other {n : Nat} (sp : Space) (v : Vector Word n) (i j : Nat) (x : Word) (h : i ≠ j) :
    rd sp (wr v i x) j = rd sp v j := by
  by_cases hj : j < n
  · rw [rd_eq _ _ _ hj, rd_eq _ _ _ hj]; simp [wr, h]
  · simp [rd, List.getD_eq_getElem?_getD, hj]

theorem rdM_eq (m : List Word) (j : Nat) (h : j < m.length) : rdM m j = m[j] := by
  simp [rdM, List.getD_eq_getElem?_getD, h]

/-! ### The executing engine and its table -/

/-- What is written to the executing engine is what it then holds. -/
theorem setEng_eng (s : State) (e : Engine) (h : s.cur < s.engines.length) : (s.setEng e).eng = e := by
  simp [State.eng, List.getD_eq_getElem?_getD, h]

theorem setTbl_tbl (s : State) (t : Table) (h : s.tableIndex < s.tables.length) : (s.setTbl t).tbl = t := by
  simp [State.tbl, List.getD_eq_getElem?_getD, h]

/-- Writing back what the executing engine holds changes nothing. -/
theorem setEng_self (s : State) : s.setEng s.eng = s := by
  by_cases h : s.cur < s.engines.length
  · simp [State.setEng, State.eng, List.getD_eq_getElem?_getD, h]
  · simp [State.setEng, List.set_eq_of_length_le (Nat.le_of_not_lt h)]

/-- A later write to the executing engine covers an earlier one. -/
@[simp] theorem setEng_setEng (s : State) (e e' : Engine) : (s.setEng e).setEng e' = s.setEng e' := by
  simp [State.setEng]

theorem setEng_others (s : State) (e : Engine) (j : Nat) (h : j ≠ s.cur) :
    (s.setEng e).engines[j]? = s.engines[j]? := by
  simp [Ne.symm h]

theorem setTbl_others (s : State) (t : Table) (j : Nat) (h : j ≠ s.tableIndex) :
    (s.setTbl t).tables[j]? = s.tables[j]? := by
  simp [Ne.symm h]

/-- The three updates a command is made of leave everything outside the executing engine alone. -/
theorem OthersKept.refl (s : State) : OthersKept s s :=
  ⟨rfl, rfl, rfl, rfl, rfl, fun _ _ => rfl, fun _ _ => rfl⟩

theorem OthersKept.trans {s t u : State} (h : OthersKept s t) (h' : OthersKept t u) : OthersKept s u where
  params := h'.params.trans h.params
  cur := h'.cur.trans h.cur
  inbox := h'.inbox.trans h.inbox
  nEngines := h'.nEngines.trans h.nEngines
  nTables := h'.nTables.trans h.nTables
  engines j hj := (h'.engines j (h.cur ▸ hj)).trans (h.engines j hj)
  tables j hj :=
    have ht : t.tableIndex = s.tableIndex := by simp [State.tableIndex, h.params, h.cur]
    (h'.tables j (ht ▸ hj)).trans (h.tables j hj)

theorem setEng_othersKept (s : State) (e : Engine) : OthersKept s (s.setEng e) where
  params := rfl
  cur := rfl
  inbox := rfl
  nEngines := by simp
  nTables := rfl
  engines := setEng_others s e
  tables _ _ := rfl

theorem setTbl_othersKept (s : State) (t : Table) : OthersKept s (s.setTbl t) where
  params := rfl
  cur := rfl
  inbox := rfl
  nEngines := rfl
  nTables := by simp
  engines _ _ := rfl
  tables := setTbl_others s t

theorem send_othersKept (s : State) (c : Code) (p : List Byte) : OthersKept s (s.send c p) :=
  ⟨rfl, rfl, rfl, rfl, rfl, fun _ _ => rfl, fun _ _ => rfl⟩

/-! ### Codes -/

theorem Code.byte_injective {c d : Code} (h : c.byte = d.byte) : c = d := by
  cases c <;> cases d <;> first | rfl | simp [Code.byte] at h

theorem Code.ecode_le (c : Code) : c.ecode.toNat ≤ 3 := by
  cases c <;> decide

theorem Code.ecode_ne_zero {c : Code} (h : c ≠ .ok) : c.ecode ≠ 0#4 := by
  cases c <;> first | exact absurd rfl h | decide

/-! ### Rejection -/

/-- All that `reject` does (60_exceptions.md R190). -/
theorem reject_rejectedWith (s : State) (c : Code) (h : s.cur < s.engines.length) : RejectedWith c s (s.reject c) where
  engine := by
    have := setEng_eng s { s.eng with ERR := true, ECODE := c.ecode } h
    simpa [State.reject] using this
  tables := rfl
  others := (setEng_othersKept s _).trans (send_othersKept _ _ _)
  answer := rfl

/-! ### The meanings, one inversion each -/

/-- All that KGEN can do. -/
theorem execKgen_cases (s : State) :
    (s.tbl.KV = true ∧ execKgen s = .next (s.send .ok [])) ∨
    (s.tbl.KV = false ∧ execKgen s = .next ((s.setTbl { K := generatedTable, KV := true }).send .ok [])) := by
  cases h : s.tbl.KV <;> simp [execKgen, h]

/-- All that PAD can do. -/
theorem execPad_cases (msg : List Byte) (s : State) :
    (s.acceptsMsg msg = true ∧ execPad msg s = .next ((s.setEng { s.eng with
      M := padwords s.params.lenMode msg, NB := (padwords s.params.lenMode msg).length / 16, BP := 0 }).send .ok [])) ∨
    (s.acceptsMsg msg = false ∧ execPad msg s = .next (s.reject .invalidArgument)) := by
  cases h : s.acceptsMsg msg <;> simp [execPad, h]

/-- All that UNPACK can do. -/
theorem execUnpack_cases (s : State) :
    (s.eng.HV = true ∧ execUnpack s = .next (s.send .ok (w2b s.eng.H.toList))) ∨
    (s.eng.HV = false ∧ execUnpack s = .next (s.reject .notReady)) := by
  cases h : s.eng.HV <;> simp [execUnpack, h]

/-- All that COMPRESS can do. -/
theorem execCompress_cases (s : State) :
    ((s.tbl.KV = false ∨ s.eng.HV = false) ∧ execCompress s = .next (s.reject .notReady)) ∨
    (s.tbl.KV = true ∧ s.eng.HV = true ∧ s.eng.NB ≤ s.eng.BP ∧ execCompress s = .next (s.reject .sequence)) ∨
    (s.tbl.KV = true ∧ s.eng.HV = true ∧ s.eng.BP < s.eng.NB ∧
      execCompress s = .next ((s.setEng (compressBlock s.tbl.K s.eng)).send .ok [])) := by
  by_cases h3 : s.eng.BP < s.eng.NB <;> cases h1 : s.tbl.KV <;> cases h2 : s.eng.HV <;>
    simp [execCompress, Engine.blk, h1, h2, h3, Nat.le_of_not_lt]

/-- Every command has a next state: no meaning faults and none refuses. -/
theorem exec_isNext (i : Instr) (s : State) : ∃ t, exec i s = .next t := by
  cases i with
  | kgen => rcases execKgen_cases s with ⟨-, h⟩ | ⟨-, h⟩ <;> exact ⟨_, h⟩
  | pad msg => rcases execPad_cases msg s with ⟨-, h⟩ | ⟨-, h⟩ <;> exact ⟨_, h⟩
  | hinit => exact ⟨_, rfl⟩
  | compress => rcases execCompress_cases s with ⟨-, h⟩ | ⟨-, -, -, h⟩ | ⟨-, -, -, h⟩ <;> exact ⟨_, h⟩
  | unpack => rcases execUnpack_cases s with ⟨-, h⟩ | ⟨-, h⟩ <;> exact ⟨_, h⟩
  | status => exact ⟨_, rfl⟩
  | reset => exact ⟨_, rfl⟩

/-! ### A step -/

/-- All that a step can do, by the oldest entry of `inbox`. -/
theorem step_cases (s : State) :
    (s.inbox = [] ∧ step s = .next s) ∨
    (∃ a rest, s.inbox = .resetInput a :: rest ∧ step s = .next { s with inbox := rest }.resetAll) ∨
    (∃ e f rest, s.inbox = .frame e f :: rest ∧ s.engines.length ≤ e ∧ step s = .fault (.noSuchEngine e)) ∨
    (∃ e f rest, s.inbox = .frame e f :: rest ∧ e < s.engines.length ∧
      ((∃ i, decode f = .command i ∧ step s = exec i (s.onEngine e rest)) ∨
       ((∃ why, decode f = .invalid why) ∧ step s = .next ((s.onEngine e rest).reject .invalidArgument)))) := by
  rcases hi : s.inbox with _ | ⟨_ | a, rest⟩
  · exact .inl ⟨rfl, by simp [step, takeInput, hi]⟩
  · rename_i e f
    by_cases he : e < s.engines.length
    · refine .inr (.inr (.inr ⟨e, f, rest, rfl, he, ?_⟩))
      cases hd : decode f with
      | command i => exact .inl ⟨i, rfl, by simp [step, takeInput, hi, deliver, runFrame, he, hd, State.onEngine]⟩
      | invalid why =>
        exact .inr ⟨⟨why, rfl⟩, by simp [step, takeInput, hi, deliver, runFrame, he, hd, State.onEngine]⟩
    · exact .inr (.inr (.inl ⟨e, f, rest, rfl, Nat.le_of_not_lt he, by simp [step, takeInput, hi, deliver, he]⟩))
  · exact .inr (.inl ⟨a, rest, rfl, by simp [step, takeInput, hi, deliver]⟩)

end Sys2Proof.Machine
end

