-- ==== Sys2Proof/Laws/Memory.lean ====
section
/-! SUPPORT. Lengths of the codec's results, and that the padded message keeps its form: `M` holds exactly `16*NB` words
after reset and after every command. -/

namespace Sys2Proof.Machine

@[simp] theorem b2w_length (bs : List Byte) : (b2w bs).length = (bs.length + 3) / 4 := by
  induction bs using b2w.induct with
  | case5 b0 b1 b2 b3 rest ih => simp [b2w, ih]; omega
  | _ => simp [b2w]

@[simp] theorem w2b_length (ws : List Word) : (w2b ws).length = 4 * ws.length := by
  induction ws with
  | nil => rfl
  | cons w ws ih => simp only [w2b, List.flatMap_cons, List.length_append, unpackWord] at *; simp [ih]; omega

@[simp] theorem lenfield_length (mode : LenMode) (n : Nat) : (lenfield mode n).length = 8 := by
  cases mode <;> simp [lenfield]

theorem zeroBytes_lt (n : Nat) : zeroBytes n < 64 := by
  unfold zeroBytes; omega

/-- The defining property of the zero bytes (41_codec.md R116). -/
theorem zeroBytes_spec (n : Nat) : (n + 1 + zeroBytes n + 8) % 64 = 0 := by
  unfold zeroBytes; omega

theorem padbytes_length (mode : LenMode) (msg : List Byte) :
    (padbytes mode msg).length = msg.length + 1 + zeroBytes msg.length + 8 := by
  simp [padbytes]; omega

/-- PAD stores a whole number of blocks. -/
theorem padwords_wf (mode : LenMode) (msg : List Byte) :
    Memory.wf (padwords mode msg) ((padwords mode msg).length / 16) = true := by
  have := zeroBytes_spec msg.length
  simp only [Memory.wf, padwords, b2w_length, padbytes_length, beq_iff_eq]
  omega

theorem reset_wf : Memory.wf Engine.reset.M Engine.reset.NB = true := by decide

/-- COMPRESS leaves the message alone. -/
theorem compressBlock_wf (k : Vector Word 64) (e : Engine) :
    Memory.wf (compressBlock k e).M (compressBlock k e).NB = Memory.wf e.M e.NB := rfl

/-- Every command keeps the form of the message, in whatever state it executes. -/
theorem exec_keeps_wf (i : Instr) (s t : State) (hc : s.cur < s.engines.length)
    (h : Memory.wf s.eng.M s.eng.NB = true) (hx : exec i s = .next t) : Memory.wf t.eng.M t.eng.NB = true := by
  have hrej : ∀ c, Memory.wf (s.reject c).eng.M (s.reject c).eng.NB = true := fun c => by
    rw [(reject_rejectedWith s c hc).engine]; exact h
  cases i with
  | kgen =>
    rcases execKgen_cases s with ⟨-, h'⟩ | ⟨-, h'⟩ <;> (rw [exec, h'] at hx; cases hx; simpa using h)
  | pad msg =>
    rcases execPad_cases msg s with ⟨-, h'⟩ | ⟨-, h'⟩ <;> (rw [exec, h'] at hx; cases hx)
    · rw [send_eng, setEng_eng _ _ hc]; exact padwords_wf _ _
    · exact hrej _
  | hinit => cases hx; rw [respondOk_eq, send_eng, setEng_eng _ _ hc]; exact h
  | compress =>
    rcases execCompress_cases s with ⟨-, h'⟩ | ⟨-, -, -, h'⟩ | ⟨-, -, -, h'⟩ <;> (rw [exec, h'] at hx; cases hx)
    · exact hrej _
    · exact hrej _
    · rw [send_eng, setEng_eng _ _ hc]; exact h
  | unpack =>
    rcases execUnpack_cases s with ⟨-, h'⟩ | ⟨-, h'⟩ <;> (rw [exec, h'] at hx; cases hx)
    · simpa using h
    · exact hrej _
  | status => cases hx; exact h
  | reset =>
    cases hx
    have : s.resetEngine.eng = Engine.reset := by
      unfold State.resetEngine
      split <;> simp [setEng_eng _ _ hc]
    rw [respondOk_eq, send_eng, this]; exact reset_wf

end Sys2Proof.Machine
end

