-- ==== Sys2Proof/Laws/HostSeq.lean ====
section
/-! SUPPORT. The small lemmas of the host library's functions (45_host_sequences.md R173 to R181), so that no later proof
unfolds them onto the digest's rounds. -/

namespace Sys2Proof.Machine

@[simp] theorem tobytes_bytes {τ : Type} (encoder : τ → List Byte) (d : List Byte) :
    tobytes encoder (.bytes d) = some d := rfl

@[simp] theorem tobytes_text {τ : Type} (encoder : τ → List Byte) (t : τ) :
    tobytes encoder (.text t) = some (encoder t) := rfl

@[simp] theorem tobytes_other {τ : Type} (encoder : τ → List Byte) : tobytes encoder .other = none := rfl

/-- A digest has 32 bytes (45_host_sequences.md R184). -/
@[simp] theorem digestOf_length (mode : LenMode) (k : Vector Word 64) (msg : List Byte) :
    (digestOf mode k msg).length = 32 := by
  simp [digestOf]

@[simp] theorem libraryDigestOf_length (mode : LenMode) (msg : List Byte) : (libraryDigestOf mode msg).length = 32 := by
  rw [libraryDigestOf, digestOf_length]

/-- All that `sha256` does with what it can convert (R181). -/
theorem libraryDigest_of_tobytes {τ : Type} {encoder : τ → List Byte} {m : Message τ} {msg : List Byte} (mode : LenMode)
    (opts : OutputOptions) (h : tobytes encoder m = some msg) :
    libraryDigest mode encoder m opts = some (format (libraryDigestOf mode msg) opts) := by
  rw [libraryDigest, h, Option.map_some]

/-- All that `sha256.x2` does with what it can convert (R173, R181). -/
theorem libraryDigest2_of_tobytes {τ : Type} {encoder : τ → List Byte} {m : Message τ} {msg : List Byte} (mode : LenMode)
    (opts : OutputOptions) (h : tobytes encoder m = some msg) :
    libraryDigest2 mode encoder m opts = some (format (libraryDigestOf mode (libraryDigestOf mode msg)) opts) := by
  rw [libraryDigest2, h, Option.map_some]

@[simp] theorem format_asBytes (d : List Byte) (b : Bool) : format d { asBytes := true, asString := b } = .bytes d := rfl

@[simp] theorem format_default (d : List Byte) : format d {} = .text (hex d) := rfl

end Sys2Proof.Machine
end

