-- ==== Sys2Proof/Laws/PerInstr.lean ====
section
/-! SUPPORT. The shape of a command's frame, one lemma per constructor (30_encoding.md R71, R79): the opcode byte, then the
operand's bytes and nothing else. -/

namespace Sys2Proof.Laws.FrameShape

/-- Format `N` frames are one byte; the format `P` frame is `1 + n` bytes. -/
def Statement (i : Instr) : Prop :=
  (encode i).head? = some i.opcode ∧ (encode i).length = 1 + i.payload.length ∧
    (i.format = .N → (encode i).length = 1)

theorem kgen : Statement .kgen := ⟨rfl, rfl, fun _ => rfl⟩
theorem pad (msg : List Byte) : Statement (.pad msg) := by
  refine ⟨rfl, ?_, nofun⟩
  simp [encode, Nat.add_comm]
theorem hinit : Statement .hinit := ⟨rfl, rfl, fun _ => rfl⟩
theorem compress : Statement .compress := ⟨rfl, rfl, fun _ => rfl⟩
theorem unpack : Statement .unpack := ⟨rfl, rfl, fun _ => rfl⟩
theorem status : Statement .status := ⟨rfl, rfl, fun _ => rfl⟩
theorem reset : Statement .reset := ⟨rfl, rfl, fun _ => rfl⟩

end Sys2Proof.Laws.FrameShape
end

