-- ==== Sys2Proof/Tests/Slice0.lean ====
section
/-! SUPPORT. Small tests, and for every statement with hypotheses a witness that meets them. Expected values are taken from
95_test_vectors.md and from the encodings of 30_encoding.md R81. -/

namespace Sys2Proof.Tests

open Sys2Proof Sys2Proof.Machine

/-! ### Well-formedness -/

/-- An engine that holds messages of at most 3 bytes. -/
def tinyParams : Params := { Params.standard with msgCap := some 3 }

theorem test_wellFormed_overlong_message_refused :
    WellFormed tinyParams (.pad [0x61#8, 0x62#8, 0x63#8, 0x64#8]) = false := by decide

theorem test_wellFormed_message_at_capacity :
    WellFormed tinyParams (.pad [0x61#8, 0x62#8, 0x63#8]) = true := by decide

theorem test_wellFormed_without_operand :
    [Instr.kgen, .hinit, .compress, .unpack, .status, .reset].all (WellFormed tinyParams) = true := by decide

/-! ### Decoding: the opcode bytes written out from R81 -/

theorem test_decode_kgen : decode [0b00000001#8] = .command .kgen := by decide
theorem test_decode_pad_empty : decode [0b00000010#8] = .command (.pad []) := by decide
theorem test_decode_pad_abc :
    decode [0b00000010#8, 0b01100001#8, 0b01100010#8, 0b01100011#8] =
      .command (.pad [0x61#8, 0x62#8, 0x63#8]) := by decide
theorem test_decode_hinit : decode [0b00000011#8] = .command .hinit := by decide
theorem test_decode_compress : decode [0b00000100#8] = .command .compress := by decide
theorem test_decode_unpack : decode [0b00000101#8] = .command .unpack := by decide
theorem test_decode_status : decode [0b00000110#8] = .command .status := by decide
theorem test_decode_reset : decode [0b00000111#8] = .command .reset := by decide
theorem test_decode_empty_frame : decode [] = .invalid .emptyFrame := by decide
theorem test_decode_reserved :
    [0x00#8, 0x08#8, 0x80#8, 0xff#8].map (fun op => decode [op]) =
      [.invalid (.reservedOpcode 0x00#8), .invalid (.reservedOpcode 0x08#8), .invalid (.reservedOpcode 0x80#8),
       .invalid (.reservedOpcode 0xff#8)] := by decide
/-- 95_test_vectors.md section 2.7, the last decoder row. -/
theorem test_decode_payload_not_allowed :
    [[0x01#8, 0x00#8], [0x03#8, 0x03#8], [0x04#8, 0x00#8, 0x00#8], [0x05#8, 0x01#8], [0x06#8, 0x06#8],
      [0x07#8, 0x00#8]].map decode =
    [.invalid (.payloadNotAllowed 0x01#8), .invalid (.payloadNotAllowed 0x03#8), .invalid (.payloadNotAllowed 0x04#8),
      .invalid (.payloadNotAllowed 0x05#8), .invalid (.payloadNotAllowed 0x06#8),
      .invalid (.payloadNotAllowed 0x07#8)] := by decide
/-- Every one of the 248 reserved opcodes and of the 8 others decodes as R82 and R83 say. -/
theorem test_decode_every_opcode :
    (List.range 256).all (fun n =>
      (match decode [BitVec.ofNat 8 n] with
        | .command i => decide (i.opcode.toNat = n)
        | .invalid _ => false) == (1 ≤ n && n ≤ 7 : Bool)) = true := by decide +kernel
theorem test_decodeTableWord_rows :
    [0x01, 0x02, 0x03, 0x04, 0x05, 0x06, 0x07].map (decodeTableWord 8) =
      [some .kgen, some (.pad []), some .hinit, some .compress, some .unpack, some .status, some .reset] := by decide
theorem test_decodeTableWord_first_byte_is_lowest :
    decodeTableWord 32 0x63626102 = some (.pad [0x61#8, 0x62#8, 0x63#8]) := by decide

/-! ### Words, bytes, padding -/

theorem test_rotr_ends :
    [rotr 0x12345678#32 1, rotr 0x12345678#32 7, rotr 0x12345678#32 31] =
      [0x091a2b3c#32, 0xf02468ac#32, 0x2468acf0#32] := by decide
theorem test_shr : [shr 0xdeadbeef#32 3, shr 0xdeadbeef#32 10] = [0x1bd5b7dd#32, 0x0037ab6f#32] := by decide
theorem test_mixes :
    [ssig0 0xdeadbeef#32, ssig1 0xdeadbeef#32, bsig0 0xdeadbeef#32, bsig1 0xdeadbeef#32] =
      [0xabd31b0b#32, 0x689dbfec#32, 0xb62e25ac#32, 0x345e14a3#32] := by decide
theorem test_ch_maj :
    [ch 0xf0f0f0f0#32 0xaaaaaaaa#32 0x55555555#32, maj 0xffffffff#32 0x00001234#32 0x00005678#32] =
      [0xa5a5a5a5#32, 0x0000567c#32] := by decide
theorem test_b2w_partial_word :
    b2w [0x01#8, 0x02#8, 0x03#8, 0x04#8, 0x05#8] = [0x01020304#32, 0x05000000#32] := by decide
theorem test_w2b : w2b [0x6a09e667#32, 0x00000018#32] =
    [0x6a#8, 0x09#8, 0xe6#8, 0x67#8, 0x00#8, 0x00#8, 0x00#8, 0x18#8] := by decide
/-- 95_test_vectors.md section 2.8, the row `2^32 + 3`. -/
theorem test_lenfield_both_modes :
    b2w (lenfield .trunc32 (2 ^ 32 + 3)) = [0x00000000#32, 0x00000018#32] ∧
    b2w (lenfield .full64 (2 ^ 32 + 3)) = [0x00000008#32, 0x00000018#32] := by decide +kernel
/-- 95_test_vectors.md section 2.3: `z` for `n` = 0, 54, 55, 56, 63, 64, 1000. -/
theorem test_zeroBytes :
    [0, 54, 55, 56, 63, 64, 1000].map zeroBytes = [55, 1, 0, 63, 56, 55, 15] := by decide
/-- 95_test_vectors.md section 2.3, the row of 63 bytes. -/
theorem test_padwords_63 :
    (padwords .trunc32 (List.replicate 63 0x61#8)).drop 15 =
      [0x61616180#32] ++ List.replicate 14 0x00000000#32 ++ [0x00000000#32, 0x000001f8#32] := by decide +kernel

/-! ### The constant generator -/

theorem test_isprime_inclusive_bound :
    [4, 9, 25, 49, 121, 169, 289].map isprime = List.replicate 7 false ∧
    [2, 3, 5, 7, 23, 29].map isprime = List.replicate 6 true := by decide
theorem test_icbrt :
    [0, 7, 8, 26, 27].map icbrt = [0, 1, 2, 2, 3] ∧
    [2, 7, 11, 311].map (fun p => icbrt (p * 2 ^ 96)) =
      [0x1428a2f98, 0x1e9b5dba5, 0x23956c25b, 0x6c67178f2] := by decide +kernel

/-! ### One step of each command -/

/-- The words PAD stores for "abc" (95_test_vectors.md section 2.3). -/
def abcWords : List Word :=
  [0x61626380#32] ++ List.replicate 14 0x00000000#32 ++ [0x00000018#32]

/-- Working variables that are all 0. -/
def zeroWork : Work := { a := 0, b := 0, c := 0, d := 0, e := 0, f := 0, g := 0, h := 0 }

/-- An engine with "abc" loaded, one block pending, and a rejection recorded. -/
def abcEngine : Engine :=
  { H := initialValue, HV := true, W := Vector.replicate 64 0, wv := zeroWork, M := abcWords, NB := 1, BP := 0
    ERR := true, ECODE := 3#4 }

/-- The same engine after its block: nothing is pending. -/
def doneEngine : Engine := { abcEngine with BP := 1 }

/-- An engine that HINIT has not reached yet. -/
def coldEngine : Engine := { abcEngine with HV := false }

/-- A table that is valid, and one that is not. -/
def goodTable : Table := { K := roundTable, KV := true }
def emptyTable : Table := { K := Vector.replicate 64 0, KV := false }

/-- Two engines with a table each, and room for 64 bytes. -/
def twoParams : Params := { kPreloaded := false, msgCap := some 64, lenMode := .trunc32, nEngines := 2, kShared := false }

/-- A state of two engines; engine 0 is the one given. -/
def twin (t : Table) (e : Engine) : State :=
  { params := twoParams, tables := [t, goodTable], engines := [e, abcEngine], cur := 0, inbox := [], outbox := [] }

/-- The same with frames delivered. -/
def twinGets (t : Table) (e : Engine) (fs : List Input) : State := { twin t e with inbox := fs }

/-- Two engines that share one table. -/
def sharing : State :=
  { twin goodTable abcEngine with params := { twoParams with kShared := true }, tables := [goodTable] }

/-- A part of the state after a step, for the tests. -/
def after {α : Type} (o : Host.Outcome State Fault Refusal) (f : State → α) : Option α :=
  match o with
  | .next t => some (f t)
  | .fault _ => none
  | .refused _ => none

/-- The bytes of the responses. -/
def sent (s : State) : List Frame := s.outbox.map Response.bytes

theorem test_kgen_fills_the_table :
    after (exec .kgen (twin emptyTable coldEngine)) (fun t => ([t.tbl.K[3], t.tbl.K[63]], t.eng, sent t)) =
      some ([0xe9b5dba5#32, 0xc67178f2#32], coldEngine, [[0x00#8]]) := by decide +kernel
theorem test_pad_abc :
    after (exec (.pad [0x61#8, 0x62#8, 0x63#8]) (twin emptyTable { doneEngine with M := [], NB := 0 }))
      (fun t => (t.eng, sent t)) = some (abcEngine, [[0x00#8]]) := by decide +kernel
theorem test_pad_56_bytes_takes_two_blocks :
    after (exec (.pad (List.replicate 56 0x61#8)) (twin goodTable doneEngine))
      (fun t => (t.eng.NB, t.eng.BP, t.eng.M.length, t.eng.M[14]?, t.eng.M[31]?)) =
      some (2, 0, 32, some 0x80000000#32, some 0x000001c0#32) := by decide +kernel
theorem test_hinit :
    after (exec .hinit (twin goodTable { coldEngine with H := Vector.replicate 8 0 })) (fun t => (t.eng, sent t)) =
      some (abcEngine, [[0x00#8]]) := by decide +kernel
/-- Program P2 of 95_test_vectors.md: the state after the COMPRESS of "abc". -/
theorem test_compress_abc :
    after (exec .compress (twin goodTable abcEngine))
      (fun t => (t.eng.H.toList, t.eng.wv, [t.eng.W[17], t.eng.W[63]])) =
      some ([0xba7816bf#32, 0x8f01cfea#32, 0x414140de#32, 0x5dae2223#32, 0xb00361a3#32, 0x96177a9c#32, 0xb410ff61#32,
          0xf20015ad#32],
        { a := 0x506e3058#32, b := 0xd39a2165#32, c := 0x04d24d6c#32, d := 0xb85e2ce9#32, e := 0x5ef50f24#32,
          f := 0xfb121210#32, g := 0x948d25b6#32, h := 0x961f4894#32 },
        [0x000f0000#32, 0x12b1edeb#32]) := by decide +kernel
/-- 95_test_vectors.md section 2.7: the three rejections of COMPRESS, in the order of the tests. -/
theorem test_compress_rejections :
    [exec .compress (twin emptyTable doneEngine), exec .compress (twin goodTable { doneEngine with HV := false }),
      exec .compress (twin goodTable doneEngine)].map (fun o => after o sent) =
      [some [[0x02#8]], some [[0x02#8]], some [[0x03#8]]] := by decide +kernel
theorem test_unpack_initial_value :
    after (exec .unpack (twin emptyTable abcEngine)) sent =
      some [[0x00#8, 0x6a#8, 0x09#8, 0xe6#8, 0x67#8, 0xbb#8, 0x67#8, 0xae#8, 0x85#8, 0x3c#8, 0x6e#8, 0xf3#8, 0x72#8,
        0xa5#8, 0x4f#8, 0xf5#8, 0x3a#8, 0x51#8, 0x0e#8, 0x52#8, 0x7f#8, 0x9b#8, 0x05#8, 0x68#8, 0x8c#8, 0x1f#8, 0x83#8,
        0xd9#8, 0xab#8, 0x5b#8, 0xe0#8, 0xcd#8, 0x19#8]] := by decide +kernel
theorem test_unpack_not_ready :
    after (exec .unpack (twin goodTable coldEngine)) (fun t => (sent t, t.eng)) =
      some ([[0x02#8]], { coldEngine with ECODE := 2#4 }) := by decide +kernel
/-- 95_test_vectors.md section 2.7: the words `3b`, `3f` and `29`. -/
theorem test_status_words :
    [exec .status (twin goodTable doneEngine), exec .status (twin goodTable abcEngine),
      exec .status (twin goodTable { doneEngine with HV := false, ECODE := 2#4 })].map (fun o => after o sent) =
      [some [[0x00#8, 0x00#8, 0x00#8, 0x00#8, 0x3b#8]], some [[0x00#8, 0x00#8, 0x00#8, 0x00#8, 0x3f#8]],
       some [[0x00#8, 0x00#8, 0x00#8, 0x00#8, 0x29#8]]] := by decide +kernel
theorem test_reset_clears_flags_and_own_table :
    after (exec .reset (twin goodTable doneEngine))
      (fun t => (t.status, t.eng.M, [t.eng.NB, t.eng.BP])) = some (0x00000000#32, [], [0, 0]) := by decide +kernel
theorem test_reset_keeps_a_shared_table :
    after (exec .reset sharing) (fun t => (t.tables, t.status)) = some ([goodTable], 0x00000001#32) := by decide +kernel

/-- A placed table word runs as the first command after reset. -/
theorem test_first_step_after_reset :
    after (step (State.reset.withFetchWord 8 0x04)) (fun t => (t.status, sent t)) = some (0x00000028#32, [[0x02#8]]) ∧
    after (step (State.reset.withFetchWord 8 0x06)) (fun t => (t.status, sent t)) =
      some (0x00000000#32, [[0x00#8, 0x00#8, 0x00#8, 0x00#8, 0x00#8]]) := by decide +kernel
/-- With `K_PRELOADED` the status word after reset is 1 (program P8). -/
theorem test_reset_preloaded :
    (State.resetWith { Params.standard with kPreloaded := true }).status = 0x00000001#32 := by decide +kernel

/-! ### Host formats -/

theorem test_hex : hex [0xba#8, 0x78#8, 0x0f#8, 0xa0#8] = "ba780fa0".toList := by decide +kernel
theorem test_commandText : commandText (.pad [0x61#8, 0x0a#8]) = "PAD 61 0a".toList := by decide +kernel
theorem test_format_precedence :
    format [0x61#8] { asBytes := true, asString := true } = .bytes [0x61#8] ∧
    format [0x61#8] { asString := true } = .text ['a'] ∧ format [0x61#8] {} = .text ['6', '1'] := by decide +kernel
theorem test_library_fails_fast (enc : List Char → List Byte) : libraryDigest .trunc32 enc .other {} = none := rfl
/-- The value of D00 section 8 for "abc" (95_test_vectors.md V2), through an encoder of characters up to 7F (R177). -/
theorem test_library_abc :
    libraryDigest .trunc32 (fun t : List Char => t.map fun c => BitVec.ofNat 8 c.toNat) (.text ['a', 'b', 'c']) {} =
      some (.text "ba7816bf8f01cfea414140de5dae2223b00361a396177a9cb410ff61f20015ad".toList) := by decide +kernel
/-- `DIGEST2 "abc"` (95_test_vectors.md program P4). -/
theorem test_library_x2_abc :
    libraryDigest2 .trunc32 (fun t : List Byte => t) (.bytes [0x61#8, 0x62#8, 0x63#8]) {} =
      some (.text "4f8b42c22dd3729b519ba6f68d2da7cc5b2d606d05daed5ad5128cc03e6c6358".toList) := by decide +kernel

/-! ### Witnesses

For each statement with hypotheses, concrete data that meets them together; for a statement of several clauses, data for
each clause at the ends of its range. -/

/-- COMPRESS waiting for engine 0. -/
def atCompress : State := twinGets goodTable abcEngine [.frame 0 [0x04#8]]

theorem twin_inv (fs : List Input) (h : ∀ i ∈ fs, i.Addressed 2) : (twinGets goodTable abcEngine fs).Inv where
  some_engine := Nat.le_succ 1
  engines_len := rfl
  tables_len := rfl
  cur_lt := Nat.zero_lt_succ 1
  engines_ok := by
    intro e he
    have : e = abcEngine := by simpa [twinGets, twin] using he
    subst this
    refine ⟨by decide, by decide, ?_, by decide, by decide⟩
    intro n hn
    have : n = 2 := by simpa [twinGets, twin, twoParams, Params.nbMax] using hn.symm
    subst this; decide
  tables_ok := by
    intro t ht
    have : t = goodTable := by simpa [twinGets, twin] using ht
    subst this
    exact ⟨fun _ => rfl, nofun⟩
  inbox_ok := h
  outbox_ok := nofun

theorem witness_DecoderFollowsItsDecisionList :
    ((0x02#8 : Byte) = 0x02#8) ∧ ((0x03#8 : Byte) ≠ 0x02#8 ∧ [(0x00#8 : Byte)] ≠ []) ∧
    ((0x00#8 : Byte) = 0x00#8 ∨ 0x08 ≤ (0x00#8 : Byte).toNat) ∧ ((0x08#8 : Byte) = 0x00#8 ∨ 0x08 ≤ (0x08#8 : Byte).toNat) ∧
    ((0xff#8 : Byte) = 0x00#8 ∨ 0x08 ≤ (0xff#8 : Byte).toNat) ∧ decode [0x08#8] = .invalid (.reservedOpcode 0x08#8) := by
  decide

theorem witness_DecodeAndEncodeAgree : decode [0x02#8, 0x61#8] = .command (.pad [0x61#8]) := by decide

theorem witness_IllFormedFramesAreRejected :
    (twinGets goodTable abcEngine [.frame 1 [0x08#8]]).inbox = [.frame 1 [0x08#8]] ∧
    1 < (twinGets goodTable abcEngine [.frame 1 [0x08#8]]).engines.length ∧ (∀ i, decode [0x08#8] ≠ .command i) ∧
    (∀ i, decode [] ≠ .command i) ∧ (∀ i, decode [0x00#8] ≠ .command i) ∧
    ∀ i, decode [0x07#8, 0x00#8] ≠ .command i := by
  refine ⟨rfl, by decide, ?_, ?_, ?_, ?_⟩ <;> intro i h <;> cases h

theorem witness_StepRunsTheDecodedCommand :
    atCompress.inbox = [.frame 0 [0x04#8]] ∧ 0 < atCompress.engines.length ∧ decode [0x04#8] = .command .compress := by
  decide

theorem witness_PlacedTableWordIsTheNextCommand :
    State.reset.cur < State.reset.engines.length ∧ decodeTableWord 8 0x02 = some (.pad []) := by decide

theorem witness_IdleMachineHoldsItsState : State.reset.inbox = [] := rfl

theorem witness_FrameForAnAbsentEngineFaults :
    (twinGets goodTable abcEngine [.frame 2 [0x04#8]]).inbox = [.frame 2 [0x04#8]] ∧
    (twinGets goodTable abcEngine [.frame 2 [0x04#8]]).engines.length ≤ 2 := by decide

theorem witness_ResetInputResetsTheWholeSystem :
    (twinGets goodTable abcEngine [.resetInput [(0, [0x04#8])], .frame 0 [0x06#8]]).inbox =
      .resetInput [(0, [0x04#8])] :: [.frame 0 [0x06#8]] := rfl

theorem witness_EveryFrameIsAnsweredOnce :
    atCompress.inbox = [.frame 0 [0x04#8]] ∧ 0 < atCompress.engines.length := by decide

/-- The code each branch of the statement's decision gives. -/
theorem witness_FirstFailingTestDecidesTheCode :
    (atCompress.inbox = [.frame 0 [0x04#8]] ∧ 0 < atCompress.engines.length) ∧
    [step (twinGets goodTable abcEngine [.frame 0 [0x04#8, 0x00#8]]),
      step (twinGets goodTable abcEngine [.frame 0 (0x02#8 :: List.replicate 64 0x00#8)]),
      step (twinGets goodTable abcEngine [.frame 0 (0x02#8 :: List.replicate 65 0x00#8)]),
      step (twinGets emptyTable coldEngine [.frame 0 [0x04#8]]), step (twinGets goodTable coldEngine [.frame 0 [0x04#8]]),
      step (twinGets goodTable doneEngine [.frame 0 [0x04#8]]), step (twinGets goodTable coldEngine [.frame 0 [0x05#8]])].map
      (fun o => after o sent) =
    [some [[0x01#8]], some [[0x00#8]], some [[0x01#8]], some [[0x02#8]], some [[0x02#8]], some [[0x03#8]],
      some [[0x02#8]]] := by decide +kernel

theorem witness_RejectionChangesOnlyErrAndEcode :
    (twinGets goodTable doneEngine [.frame 0 [0x04#8]]).inbox = [.frame 0 [0x04#8]] ∧
    0 < (twinGets goodTable doneEngine [.frame 0 [0x04#8]]).engines.length ∧ Code.sequence ≠ .ok ∧
    ∃ t, step (twinGets goodTable doneEngine [.frame 0 [0x04#8]]) = .next t ∧
      t.outbox = (twinGets goodTable doneEngine [.frame 0 [0x04#8]]).outbox ++ [{ engine := 0, bytes := [Code.sequence.byte] }] :=
  ⟨rfl, by decide, nofun, _, rfl, rfl⟩

theorem witness_ExecutedCommandKeepsErrAndEcode :
    Instr.hinit ≠ .reset ∧ ∃ t, exec .hinit (twin goodTable coldEngine) = .next t ∧
      Answers (twin goodTable coldEngine) t [Code.byte .ok] :=
  ⟨nofun, _, rfl, rfl⟩

/-- Each clause's premise: KGEN changes a table, HINIT `H` and `HV`, PAD `M`, `NB` and `BP`, COMPRESS `W` and `a..h`. -/
theorem witness_EachStorageHasItsWriters :
    (∃ t, exec .kgen (twin emptyTable coldEngine) = .next t ∧ t.tables ≠ (twin emptyTable coldEngine).tables) ∧
    (∃ t, exec .hinit (twin goodTable { coldEngine with H := Vector.replicate 8 0 }) = .next t ∧
      t.eng.H ≠ Vector.replicate 8 0 ∧ t.eng.HV ≠ false) ∧
    (∃ t, exec (.pad []) (twin goodTable { doneEngine with NB := 2 }) = .next t ∧
      t.eng.M ≠ abcWords ∧ t.eng.NB ≠ 2 ∧ t.eng.BP ≠ 1) ∧
    ∃ t, exec .compress (twin goodTable abcEngine) = .next t ∧ t.eng.W ≠ abcEngine.W ∧ t.eng.wv ≠ abcEngine.wv :=
  ⟨⟨_, rfl, by decide +kernel⟩, ⟨_, rfl, by decide +kernel, by decide +kernel⟩,
    ⟨_, rfl, by decide +kernel, by decide +kernel, by decide +kernel⟩, ⟨_, rfl, by decide +kernel, by decide +kernel⟩⟩

theorem witness_CommandTouchesOnlyItsOwnEngine :
    ∃ t, exec .compress (twin goodTable abcEngine) = .next t := ⟨_, rfl⟩

theorem witness_KgenFillsTheTable :
    (twin emptyTable coldEngine).Selected ∧ (twin emptyTable coldEngine).tbl.KV = false :=
  ⟨⟨by decide, by decide⟩, rfl⟩

theorem witness_KgenWithAValidTableChangesNothing : (twin goodTable coldEngine).tbl.KV = true := rfl

theorem witness_ValidTableIsNeverMutated :
    (twin goodTable abcEngine).tbl.KV = true ∧ Instr.kgen ≠ .reset ∧
    ∃ t, exec .kgen (twin goodTable abcEngine) = .next t := ⟨rfl, nofun, _, rfl⟩

theorem witness_TrialDivisionTest : 2 ≤ 2 ∧ 2 * 2 ≤ 4 ∧ 2 ≤ 2 ∧ 2 * 2 ≤ 5 ∧ isprime 4 = false ∧ isprime 5 = true := by
  decide

theorem witness_ScanKeepsExactlyThePrimes :
    2 ≤ 2 ∧ scanPrimes 8 2 3 = [2, 3, 5] ∧ scanPrimes 3 2 9 = [2, 3] ∧ 311 ∈ scanPrimes 310 2 64 := by decide +kernel

theorem witness_IntegerCubeRootForm : 1 ^ 3 ≤ 1 ∧ 2 ^ 3 ≤ 26 ∧ 0 < 64 ∧ 63 < 64 := by decide

theorem witness_BytesToWordsPacksBigEndian : 0 < (b2w [0x61#8]).length ∧ 1 < (b2w [0#8, 0#8, 0#8, 0#8, 0#8]).length := by
  decide

theorem witness_WordsToBytesUnpacksBigEndian : [0x6a09e667#32][0]? = some 0x6a09e667#32 ∧ 0 < 4 ∧ 3 < 4 := by decide

/-- `k' = 15` for the message of 54 bytes, whose padding has one zero byte, and `k' = 7` for the one of 55, whose padding
has none. -/
theorem witness_PaddingAtBitLevel : (8 * 54 + 1 + 15) % 512 = 448 ∧ (8 * 55 + 1 + 7) % 512 = 448 := by decide

theorem witness_LengthFieldOfBothModes :
    2 ^ 29 - 1 < 2 ^ 29 ∧ (2 ^ 29 ≤ 2 ^ 29 ∧ 2 ^ 29 < 2 ^ 61) ∧ (2 ^ 29 ≤ 2 ^ 61 - 1 ∧ 2 ^ 61 - 1 < 2 ^ 61) := by decide

/-- The ends of the ranges of the word index, for the message of 55 bytes (13 whole words, 16 words in all) and the one of
56 bytes (14 whole words, 32 words in all). -/
theorem witness_PaddedMessageWordByWord :
    (0 < 55 / 4 ∧ 12 < 55 / 4) ∧ 13 = 55 / 4 ∧
    (55 / 4 < 14 → ¬14 < 16 * ((55 + 8) / 64 + 1) - 2) ∧
    (56 / 4 < 15 ∧ 15 < 16 * ((56 + 8) / 64 + 1) - 2) ∧ (56 / 4 < 29 ∧ 29 < 16 * ((56 + 8) / 64 + 1) - 2) := by decide

theorem witness_PadLoadsThePaddedMessage :
    (twin goodTable abcEngine).cur < (twin goodTable abcEngine).engines.length ∧
    ∀ cap, (twin goodTable abcEngine).params.msgCap = some cap → (List.replicate 64 0x00#8).length ≤ cap := by
  refine ⟨by decide, fun cap h => ?_⟩
  have : cap = 64 := by simpa [twin, twoParams] using h.symm
  subst this; decide

theorem witness_PadRejectsAnOverlongMessage :
    (twin goodTable abcEngine).cur < (twin goodTable abcEngine).engines.length ∧
    (twin goodTable abcEngine).params.msgCap = some 64 ∧ 64 < (List.replicate 65 0x00#8).length := by decide

theorem witness_UnpackReturnsTheHashState :
    (twin emptyTable abcEngine).eng.HV = true ∧
    (twin emptyTable abcEngine).eng.H.toList[0]? = some 0x6a09e667#32 ∧
    (twin emptyTable abcEngine).eng.H.toList[7]? = some 0x5be0cd19#32 ∧ 3 < 4 := by decide

theorem witness_UnpackBeforeHinitIsNotReady :
    (twin goodTable coldEngine).cur < (twin goodTable coldEngine).engines.length ∧
    (twin goodTable coldEngine).eng.HV = false := by decide

theorem witness_RotrMovesEveryBit : (1 ≤ 1 ∧ 1 ≤ 31) ∧ (1 ≤ 31 ∧ 31 ≤ 31) ∧ 0 < 32 ∧ 31 < 32 := by decide

theorem witness_ShrIsALogicalShift :
    (1 ≤ 1 ∧ 1 ≤ 31) ∧ (1 ≤ 31 ∧ 31 ≤ 31) ∧ 0 < 32 ∧ 31 < 32 ∧ 28 + 3 ≤ 31 ∧ ¬29 + 3 ≤ 31 := by decide

theorem witness_MixesBitByBit : 0 < 32 ∧ 31 < 32 := by decide

theorem witness_ChoiceAndMajorityBitByBit : 0 < 32 ∧ 31 < 32 := by decide

theorem witness_HinitSetsTheInitialValue :
    (twin emptyTable coldEngine).cur < (twin emptyTable coldEngine).engines.length := by decide

/-- The hypotheses of the COMPRESS statements about one block, `j` at both ends of its two ranges included. -/
theorem witness_CompressProcessesOneBlock :
    (twin goodTable abcEngine).cur < (twin goodTable abcEngine).engines.length ∧
    (twin goodTable abcEngine).tbl.KV = true ∧ (twin goodTable abcEngine).eng.HV = true ∧
    (twin goodTable abcEngine).eng.BP < (twin goodTable abcEngine).eng.NB := by decide

theorem witness_CompressBuildsTheSchedule :
    (twin goodTable abcEngine).cur < (twin goodTable abcEngine).engines.length ∧
    (twin goodTable abcEngine).tbl.KV = true ∧ (twin goodTable abcEngine).eng.HV = true ∧
    (twin goodTable abcEngine).eng.BP < (twin goodTable abcEngine).eng.NB ∧
    Memory.wf (twin goodTable abcEngine).eng.M (twin goodTable abcEngine).eng.NB = true ∧
    (0 < 16 ∧ 15 < 16) ∧ (16 ≤ 16 ∧ 16 < 64) ∧ (16 ≤ 63 ∧ 63 < 64) := by decide

theorem witness_CompressRunsSixtyFourRounds :
    (twin goodTable abcEngine).cur < (twin goodTable abcEngine).engines.length ∧
    (twin goodTable abcEngine).tbl.KV = true ∧ (twin goodTable abcEngine).eng.HV = true ∧
    (twin goodTable abcEngine).eng.BP < (twin goodTable abcEngine).eng.NB ∧ 0 < 64 ∧ 63 < 64 := by decide

theorem witness_CompressRejectsWhatItCannotDo :
    (twin emptyTable abcEngine).cur < (twin emptyTable abcEngine).engines.length ∧
    (twin emptyTable abcEngine).tbl.KV = false ∧ (twin goodTable coldEngine).eng.HV = false ∧
    ((twin goodTable doneEngine).tbl.KV = true ∧ (twin goodTable doneEngine).eng.HV = true ∧
      (twin goodTable doneEngine).eng.NB ≤ (twin goodTable doneEngine).eng.BP) := by decide

theorem witness_ScratchBeforeCompressNeverMatters :
    (twin goodTable abcEngine).tbl.KV = true ∧ (twin goodTable abcEngine).eng.HV = true ∧
    (twin goodTable abcEngine).eng.BP < (twin goodTable abcEngine).eng.NB ∧
    (twin goodTable abcEngine).cur < (twin goodTable abcEngine).engines.length := by decide

theorem witness_ResetCommandResetsItsEngine :
    (twin goodTable doneEngine).Selected ∧ sharing.Selected ∧
    (sharing.params.kShared = true ∧ 1 < sharing.params.nEngines) ∧
    ¬((twin goodTable doneEngine).params.kShared = true ∧ 1 < (twin goodTable doneEngine).params.nEngines) :=
  ⟨⟨by decide, by decide⟩, ⟨by decide, by decide⟩, by decide, by decide⟩

theorem witness_ResetValues :
    Engine.reset ∈ (State.resetWith twoParams).engines ∧
    Table.reset { twoParams with kPreloaded := true } ∈ (State.resetWith { twoParams with kPreloaded := true }).tables :=
  ⟨List.mem_replicate.2 ⟨by decide, rfl⟩, List.mem_replicate.2 ⟨by decide, rfl⟩⟩

theorem witness_InvariantHoldsAfterReset : 1 ≤ Params.standard.nEngines := by decide

theorem witness_EveryStepKeepsTheInvariant : atCompress.Inv ∧ ∃ t, step atCompress = .next t :=
  ⟨twin_inv _ (by simp [Input.Addressed]), _, rfl⟩

theorem witness_NoFrameStopsTheMachine : atCompress.Inv := twin_inv _ (by simp [Input.Addressed])

/-- The same state with other words where nothing was written. -/
theorem witness_UnwrittenStorageIsNeverRead :
    ∃ t, (twinGets emptyTable coldEngine [.frame 0 [0x04#8]]).Alike
      (twinGets { emptyTable with K := roundTable }
        { coldEngine with H := Vector.replicate 8 7, W := Vector.replicate 64 7 } [.frame 0 [0x04#8]]) ∧
      step (twinGets emptyTable coldEngine [.frame 0 [0x04#8]]) = .next t := by
  refine ⟨_, ⟨rfl, rfl, rfl, rfl, ?_, ?_⟩, rfl⟩
  · exact .cons ⟨rfl, nofun, rfl, rfl, rfl, rfl, rfl⟩ (.cons ⟨rfl, fun _ => rfl, rfl, rfl, rfl, rfl, rfl⟩ .nil)
  · exact .cons ⟨rfl, nofun⟩ (.cons ⟨rfl, fun _ => rfl⟩ .nil)

/-- A RESET frame to engine 0 clears `ERR`, `HV` and the `KV` of its own table. -/
theorem witness_FlagsAreClearedOnlyByReset :
    (twinGets goodTable abcEngine [.frame 0 [0x07#8]]).inbox = [.frame 0 [0x07#8]] ∧
    ∃ t e' u', step (twinGets goodTable abcEngine [.frame 0 [0x07#8]]) = .next t ∧
      (twinGets goodTable abcEngine [.frame 0 [0x07#8]]).engines[0]? = some abcEngine ∧ t.engines[0]? = some e' ∧
      (abcEngine.ERR = true ∧ e'.ERR = false) ∧ (abcEngine.HV = true ∧ e'.HV = false) ∧
      (twinGets goodTable abcEngine [.frame 0 [0x07#8]]).tables[0]? = some goodTable ∧ t.tables[0]? = some u' ∧
      goodTable.KV = true ∧ u'.KV = false :=
  ⟨rfl, _, _, _, rfl, rfl, rfl, ⟨rfl, rfl⟩, ⟨rfl, rfl⟩, rfl, rfl, rfl, rfl⟩

theorem witness_BlockPointerOnlyCountsUp :
    (twin goodTable abcEngine).cur < (twin goodTable abcEngine).engines.length ∧
    ∃ t, exec .compress (twin goodTable abcEngine) = .next t := ⟨by decide, _, rfl⟩

/-- Two executions of one command, for each kind of command the statement names. -/
theorem witness_ReadsHaveNoSideEffects :
    (twin goodTable abcEngine).Selected ∧
    ∀ i ∈ [Instr.status, .unpack, .kgen, .hinit, .pad []],
      ∃ t u, exec i (twin goodTable abcEngine) = .next t ∧ exec i t = .next u :=
  ⟨⟨by decide, by decide⟩, fun i _ => by
    obtain ⟨t, ht⟩ := exec_isNext i (twin goodTable abcEngine)
    obtain ⟨u, hu⟩ := exec_isNext i t
    exact ⟨t, u, ht, hu⟩⟩

theorem witness_DifferentEnginesDoNotInterfere :
    (twin goodTable abcEngine).Inv ∧ 0 < (twin goodTable abcEngine).params.nEngines ∧
    1 < (twin goodTable abcEngine).params.nEngines ∧ 0 ≠ 1 ∧
    ((twin goodTable abcEngine).params.kShared = true → ∀ b ∈ (twin goodTable abcEngine).tables, b.KV = true) ∧
    (∃ t, RunsTo 2 { twin goodTable abcEngine with inbox := [.frame 0 [0x07#8], .frame 1 [0x03#8]] } t) ∧
    ∃ u, RunsTo 2 { twin goodTable abcEngine with inbox := [.frame 1 [0x03#8], .frame 0 [0x07#8]] } u :=
  ⟨twin_inv [] nofun, by decide, by decide, by decide, by decide, ⟨_, _, rfl, _, rfl, rfl⟩, ⟨_, _, rfl, _, rfl, rfl⟩⟩

theorem witness_DigestSequenceReturnsTheDigest :
    0 < (twin goodTable coldEngine).engines.length ∧ ((twin goodTable coldEngine).onEngine 0 []).tbl.KV = true ∧
    ∀ cap, (twin goodTable coldEngine).params.msgCap = some cap → [0x61#8, 0x62#8, 0x63#8].length ≤ cap := by
  refine ⟨by decide, rfl, fun cap h => ?_⟩
  have : cap = 64 := by simpa [twin, twoParams] using h.symm
  subst this; decide

theorem witness_DoubleDigestIsTheDigestOfTheDigest :
    0 < (twin goodTable coldEngine).engines.length ∧ ((twin goodTable coldEngine).onEngine 0 []).tbl.KV = true ∧
    (∀ cap, (twin goodTable coldEngine).params.msgCap = some cap → [0x61#8].length ≤ cap ∧ 32 ≤ cap) ∧
    ∃ d1, d1 = digestOf (twin goodTable coldEngine).params.lenMode ((twin goodTable coldEngine).onEngine 0 []).tbl.K
      [0x61#8] := by
  refine ⟨by decide, rfl, fun cap h => ?_, _, rfl⟩
  have : cap = 64 := by simpa [twin, twoParams] using h.symm
  subst this; decide

theorem witness_RunEndsWithNoBlockPending :
    (twin goodTable abcEngine).cur < (twin goodTable abcEngine).engines.length ∧
    (twin goodTable abcEngine).tbl.KV = true ∧ (twin goodTable abcEngine).eng.HV = true ∧
    (twin goodTable abcEngine).eng.BP ≤ (twin goodTable abcEngine).eng.NB ∧
    (twin goodTable abcEngine).eng.NB - (twin goodTable abcEngine).eng.BP < 2 := by decide

theorem witness_HexFormatOfTheDigest :
    [0xba#8, 0x0f#8][0]? = some 0xba#8 ∧ [0xba#8, 0x0f#8][1]? = some 0x0f#8 := by decide

/-- Bytes, and a text of whatever kind, on an engine whose capacity is at the limit for both runs. -/
theorem witness_LibraryDigestIsTheFormattedDigest :
    ((Message.bytes [0x61#8] : Message Nat) = .bytes [0x61#8]) ∧
    (∃ x, (Message.text 97 : Message Nat) = .text x ∧ [BitVec.ofNat 8 x] = [0x61#8]) ∧
    0 < (twin goodTable coldEngine).engines.length ∧ (twin goodTable coldEngine).params.lenMode = .trunc32 ∧
    ((twin goodTable coldEngine).onEngine 0 []).tbl = { K := roundTable, KV := true } ∧
    (∀ cap, (twin goodTable coldEngine).params.msgCap = some cap → [0x61#8].length ≤ cap) ∧
    ∀ cap, (twin goodTable coldEngine).params.msgCap = some cap → 32 ≤ cap := by
  have hcap : ∀ cap, (twin goodTable coldEngine).params.msgCap = some cap → cap = 64 := fun cap h => by
    simpa [twin, twoParams] using h.symm
  exact ⟨rfl, ⟨97, rfl, by decide⟩, by decide, rfl, rfl, fun cap h => hcap cap h ▸ by decide,
    fun cap h => hcap cap h ▸ by decide⟩

end Sys2Proof.Tests
end

section
/-! PROOFS. The step simulation between states that differ only in storage nothing has written. Its one computation is that
COMPRESS writes every slot of `W` before it reads it; the rest is that each update of the state keeps likeness and each flag
test answers the same on both sides. -/

namespace Sys2Proof.Machine

/-! ### The schedule is written before it is read -/

/-- Outside the space a word is uninterpreted, whatever the storage holds. -/
theorem rd_outside {n : Nat} (sp : Space) (v : Vector Word n) (i : Nat) (h : n ≤ i) :
    rd sp v i = Config.novalue sp i := by
  simp [rd, List.getD_eq_getElem?_getD, h]

/-- Two schedules hold the same words in the slots below `n`. -/
def AgreeBelow (n : Nat) (w w' : Vector Word 64) : Prop :=
  ∀ i < n, rd .W w i = rd .W w' i

theorem AgreeBelow.zero (w w' : Vector Word 64) : AgreeBelow 0 w w' := nofun

/-- Schedules that agree in all 64 slots are equal. -/
theorem AgreeBelow.eq {w w' : Vector Word 64} (h : AgreeBelow 64 w w') : w = w' :=
  Vector.ext fun i hi => by simpa only [rd_eq _ _ _ hi] using h i hi

/-- Writing one word to the next slot of both extends the agreement to it. -/
theorem AgreeBelow.wr {n : Nat} {w w' : Vector Word 64} (h : AgreeBelow n w w') (x : Word) :
    AgreeBelow (n + 1) (wr w n x) (wr w' n x) := by
  intro i hi
  rcases Nat.lt_succ_iff_lt_or_eq.mp hi with hlt | rfl
  · rw [rd_wr_other _ _ _ _ _ hlt.ne', rd_wr_other _ _ _ _ _ hlt.ne', h i hlt]
  · rcases Nat.lt_or_ge i 64 with h64 | h64
    · rw [rd_wr_same _ _ _ _ h64, rd_wr_same _ _ _ _ h64]
    · rw [rd_outside _ _ _ h64, rd_outside _ _ _ h64]

/-- A loop over the slots from `k` on, each round of which extends agreement by its own slot, extends it over all of
them. -/
theorem AgreeBelow.foldl {f : Vector Word 64 → Nat → Vector Word 64} {k : Nat}
    (hf : ∀ t w w', k ≤ t → AgreeBelow t w w' → AgreeBelow (t + 1) (f w t) (f w' t)) (n : Nat)
    {w w' : Vector Word 64} (h : AgreeBelow k w w') :
    AgreeBelow (k + n) ((List.range' k n).foldl f w) ((List.range' k n).foldl f w') := by
  induction n with
  | zero => exact h
  | succ n ih =>
    simp only [List.range'_1_concat, List.foldl_concat]
    exact hf _ _ _ (Nat.le_add_right k n) ih

/-- Step 1 of COMPRESS reads only the message (42_compression.md R141). -/
theorem loadBlock_agree (m : List Word) (bp : Nat) (w w' : Vector Word 64) :
    AgreeBelow 16 (loadBlock m bp w) (loadBlock m bp w') := by
  unfold loadBlock
  rw [List.range_eq_range']
  refine AgreeBelow.foldl (k := 0) ?_ 16 (.zero w w')
  exact fun t _ _ _ h => h.wr (rdM m (16 * bp + t))

/-- A slot of step 2 is computed from lower slots (42_compression.md R142). -/
theorem expandSlot_agree {t : Nat} {w w' : Vector Word 64} (ht : 16 ≤ t) (h : AgreeBelow t w w') :
    AgreeBelow (t + 1) (expandSlot w t) (expandSlot w' t) := by
  unfold expandSlot
  rw [h (t - 16) (by omega), h (t - 15) (by omega), h (t - 7) (by omega), h (t - 2) (by omega)]
  exact h.wr _

/-- The schedule of a block does not depend on what `W` held before (10_state.md R26, R42). -/
theorem expand_loadBlock_eq (m : List Word) (bp : Nat) (w w' : Vector Word 64) :
    expand (loadBlock m bp w) = expand (loadBlock m bp w') :=
  (AgreeBelow.foldl (fun _ _ _ ht h => expandSlot_agree ht h) 48 (loadBlock_agree m bp w w')).eq

theorem compressBlock_H (k : Vector Word 64) (e : Engine) :
    (compressBlock k e).H =
      addBack e.H (rounds k (expand (loadBlock e.M e.BP e.W)) 64 (copyHash e.H)) := rfl

/-! ### Engines and tables that are alike -/

theorem Engine.Alike.refl (e : Engine) : Engine.Alike e e :=
  ⟨rfl, fun _ => rfl, rfl, rfl, rfl, rfl, rfl⟩

theorem Table.Alike.refl (t : Table) : Table.Alike t t :=
  ⟨rfl, fun _ => rfl⟩

theorem Engine.Alike.blk {e e' : Engine} (h : e.Alike e') : e'.blk = e.blk := by
  simp only [Engine.blk, h.bp, h.nb]

theorem Engine.Alike.statusWord {e e' : Engine} {t t' : Table} (he : e.Alike e') (ht : t.Alike t') :
    statusWord t' e' = statusWord t e := by
  simp only [Machine.statusWord, he.ecode, he.err, he.blk, he.hv, ht.kv]

/-- A block processed with `HV = 1` reads no storage in which the two engines may differ. -/
theorem Engine.Alike.compressBlock {e e' : Engine} (h : e.Alike e') (hv : e.HV = true) (k : Vector Word 64) :
    (compressBlock k e).Alike (compressBlock k e') where
  hv := h.hv
  h _ := by
    rw [compressBlock_H, compressBlock_H, h.h hv, h.mem, h.bp, expand_loadBlock_eq _ _ e'.W e.W]
  mem := h.mem
  nb := h.nb
  bp := congrArg (· + 1) h.bp
  err := h.err
  ecode := h.ecode

/-! ### Lists related entry by entry -/

section
variable {α β : Type} {R : α → β → Prop} {l : List α} {l' : List β} {a : α} {b : β}

theorem forall₂_getD (h : List.Forall₂ R l l') (hab : R a b) (n : Nat) : R (l.getD n a) (l'.getD n b) := by
  induction h generalizing n with
  | nil => simpa using hab
  | cons hd _ ih =>
    cases n with
    | zero => simpa using hd
    | succ n => simpa using ih n

theorem forall₂_set (h : List.Forall₂ R l l') (hab : R a b) (n : Nat) :
    List.Forall₂ R (l.set n a) (l'.set n b) := by
  induction h generalizing n with
  | nil => exact .nil
  | cons hd tl ih =>
    cases n with
    | zero => exact .cons hab tl
    | succ n => exact .cons hd (ih n)

end

/-! ### The operations keep states alike -/

namespace State.Alike

variable {s s' : State}

theorem tableIndex (h : s.Alike s') : s'.tableIndex = s.tableIndex := by
  simp only [State.tableIndex, h.params, h.cur]

theorem tableIsShared (h : s.Alike s') : s'.tableIsShared = s.tableIsShared := by
  simp only [State.tableIsShared, h.params]

theorem acceptsMsg (h : s.Alike s') (msg : List Byte) : s'.acceptsMsg msg = s.acceptsMsg msg := by
  simp only [State.acceptsMsg, h.params]

theorem eng (h : s.Alike s') : s.eng.Alike s'.eng := by
  rw [State.eng, State.eng, h.cur]
  exact forall₂_getD h.engines (.refl _) _

theorem tbl (h : s.Alike s') : s.tbl.Alike s'.tbl := by
  rw [State.tbl, State.tbl, h.tableIndex, h.params]
  exact forall₂_getD h.tables (.refl _) _

theorem setEng (h : s.Alike s') {e e' : Engine} (he : e.Alike e') : (s.setEng e).Alike (s'.setEng e') where
  params := h.params
  cur := h.cur
  inbox := h.inbox
  outbox := h.outbox
  engines := by
    rw [setEng_engines, setEng_engines, h.cur]
    exact forall₂_set h.engines he _
  tables := h.tables

theorem setTbl (h : s.Alike s') {t t' : Table} (ht : t.Alike t') : (s.setTbl t).Alike (s'.setTbl t') where
  params := h.params
  cur := h.cur
  inbox := h.inbox
  outbox := h.outbox
  engines := h.engines
  tables := by
    rw [setTbl_tables, setTbl_tables, h.tableIndex]
    exact forall₂_set h.tables ht _

theorem send (h : s.Alike s') (c : Code) (p : List Byte) : (s.send c p).Alike (s'.send c p) where
  params := h.params
  cur := h.cur
  inbox := h.inbox
  outbox := by rw [send_outbox, send_outbox, h.outbox, h.cur]
  engines := h.engines
  tables := h.tables

theorem reject (h : s.Alike s') (c : Code) : (s.reject c).Alike (s'.reject c) := by
  refine State.Alike.send (h.setEng ?_) c []
  exact { h.eng with err := rfl, ecode := rfl }

theorem resetEngine (h : s.Alike s') : s.resetEngine.Alike s'.resetEngine := by
  have own := h.setEng (.refl Engine.reset)
  unfold State.resetEngine
  rw [h.tableIsShared, h.params]
  split
  · exact own
  · exact own.setTbl (.refl _)

theorem resetAll (h : s.Alike s') : s.resetAll.Alike s'.resetAll where
  params := h.params
  cur := h.cur
  inbox := h.inbox
  outbox := h.outbox
  engines := by
    rw [resetAll_engines, resetAll_engines, h.params]
    exact List.forall₂_same.mpr fun e _ => .refl e
  tables := by
    rw [resetAll_tables, resetAll_tables, h.params]
    exact List.forall₂_same.mpr fun t _ => .refl t

theorem withCur (h : s.Alike s') (e : Nat) : { s with cur := e }.Alike { s' with cur := e } :=
  { h with cur := rfl }

theorem withInbox (h : s.Alike s') (rest : List Input) : { s with inbox := rest }.Alike { s' with inbox := rest } :=
  { h with inbox := rfl }

end State.Alike

/-! ### Commands and steps have the same outcome in states that are alike -/

/-- Two outcomes of the same kind: like next states, or the same reason to stop. -/
inductive OutcomeAlike : Host.Outcome State Fault Refusal → Host.Outcome State Fault Refusal → Prop where
  | next {t t' : State} (h : t.Alike t') : OutcomeAlike (.next t) (.next t')
  | fault (r : Fault) : OutcomeAlike (.fault r) (.fault r)
  | refused (r : Refusal) : OutcomeAlike (.refused r) (.refused r)

section
variable {s s' : State} (h : s.Alike s')
include h

theorem execKgen_alike : OutcomeAlike (execKgen s) (execKgen s') := by
  unfold execKgen
  rw [h.tbl.kv]
  split
  · exact .next (h.send _ _)
  · exact .next ((h.setTbl (.refl _)).send _ _)

theorem execPad_alike (msg : List Byte) : OutcomeAlike (execPad msg s) (execPad msg s') := by
  unfold execPad
  rw [h.acceptsMsg, h.params]
  split
  · refine .next (State.Alike.send (h.setEng ?_) _ _)
    exact { h.eng with mem := rfl, nb := rfl, bp := rfl }
  · exact .next (h.reject _)

theorem execHinit_alike : OutcomeAlike (execHinit s) (execHinit s') := by
  refine .next (State.Alike.send (h.setEng ?_) _ _)
  exact { h.eng with hv := rfl, h := fun _ => rfl }

/-- `K` is read only after the test of `KV`, `H` only after the test of `HV` (42_compression.md R140). -/
theorem execCompress_alike : OutcomeAlike (execCompress s) (execCompress s') := by
  unfold execCompress
  rw [h.tbl.kv, h.eng.hv, h.eng.blk]
  split_ifs with hkv hhv hblk
  · exact .next (h.reject _)
  · exact .next (h.reject _)
  · exact .next (h.reject _)
  · rw [h.tbl.k (Bool.eq_true_of_not_eq_false hkv)]
    exact .next ((h.setEng (h.eng.compressBlock (Bool.eq_true_of_not_eq_false hhv) _)).send _ _)

/-- `H` is read only after the test of `HV` (41_codec.md R122). -/
theorem execUnpack_alike : OutcomeAlike (execUnpack s) (execUnpack s') := by
  unfold execUnpack
  rw [h.eng.hv]
  split_ifs with hhv
  · rw [h.eng.h hhv]
    exact .next (h.send _ _)
  · exact .next (h.reject _)

theorem execStatus_alike : OutcomeAlike (execStatus s) (execStatus s') := by
  have hst : s'.status = s.status := h.eng.statusWord h.tbl
  unfold execStatus
  rw [hst]
  exact .next (h.send _ _)

theorem execReset_alike : OutcomeAlike (execReset s) (execReset s') :=
  .next (h.resetEngine.send _ _)

theorem exec_alike (i : Instr) : OutcomeAlike (exec i s) (exec i s') :=
  match i with
  | .kgen => execKgen_alike h
  | .pad msg => execPad_alike h msg
  | .hinit => execHinit_alike h
  | .compress => execCompress_alike h
  | .unpack => execUnpack_alike h
  | .status => execStatus_alike h
  | .reset => execReset_alike h

theorem runFrame_alike (f : Frame) : OutcomeAlike (runFrame f s) (runFrame f s') := by
  unfold runFrame
  cases decode f with
  | command i => exact exec_alike h i
  | invalid why => exact .next (h.reject _)

theorem deliver_alike (inp : Input) : OutcomeAlike (deliver inp s) (deliver inp s') := by
  cases inp with
  | frame e f =>
    simp only [deliver, h.engines.length_eq]
    split
    · exact runFrame_alike (h.withCur e) f
    · exact .fault _
  | resetInput a => exact .next h.resetAll

/-- The step simulation, stops included. -/
theorem step_alike : OutcomeAlike (step s) (step s') := by
  unfold step takeInput
  rw [h.inbox]
  cases s.inbox with
  | nil => exact .next h
  | cons inp rest => exact deliver_alike (h.withInbox rest) inp

end

/-- Settles O51: a step from a state that is alike has the same outcome, here a next state that is alike. -/
theorem unwrittenStorageIsNeverRead : Obligations.UnwrittenStorageIsNeverRead := by
  unfold Obligations.UnwrittenStorageIsNeverRead
  intro s s' t h hstep
  have hsim := step_alike h
  rw [hstep] at hsim
  generalize step s' = o at hsim ⊢
  cases hsim with
  | next ht => exact ⟨_, rfl, ht⟩

end Sys2Proof.Machine
end

section
/-! PROOFS. What a command that executes can do, said once (`Executes`), and the facts about the state's parts on which the
statements about the flags, the tables and the invariant stand. -/

namespace Sys2Proof.Machine

/-! ### Facts about the parts of the state -/

/-- The generator computes the printed table (40_constant_generator.md R98). -/
theorem generatedTable_eq_roundTable : generatedTable = roundTable := by decide +kernel

theorem eng_of_getElem? {s : State} {e : Engine} (h : s.engines[s.cur]? = some e) : s.eng = e := by
  simp [State.eng, List.getD_eq_getElem?_getD, h]

theorem tbl_of_getElem? {s : State} {b : Table} (h : s.tables[s.tableIndex]? = some b) : s.tbl = b := by
  simp [State.tbl, List.getD_eq_getElem?_getD, h]

/-- A write that leaves one aspect of the executing engine as it is, also where the system has no such engine and the write
is lost. -/
theorem setEng_keeps {α : Type} (f : Engine → α) {s : State} {e : Engine} (h : f e = f s.eng) :
    f (s.setEng e).eng = f s.eng := by
  by_cases hc : s.cur < s.engines.length
  · rw [setEng_eng s e hc, h]
  · simp [State.eng, List.set_eq_of_length_le (Nat.le_of_not_lt hc)]

theorem tableIsShared_iff (s : State) :
    s.tableIsShared = true ↔ s.params.kShared = true ∧ 1 < s.params.nEngines := by
  simp [State.tableIsShared]

/-- The codec's form of R119: PAD stores `NB` whole blocks. -/
theorem padwords_blocks (mode : LenMode) (msg : List Byte) :
    (padwords mode msg).length / 16 = blocksOf msg.length := by
  have hz := zeroBytes_lt msg.length
  have hpad := zeroBytes_spec msg.length
  simp only [padwords, b2w_length, padbytes_length, blocksOf]
  omega

/-- A message within `MSG_CAP` takes at most `NBMAX` blocks (10_state.md R29). -/
theorem blocksOf_le_nbMax {p : Params} {k n : Nat} (hfit : msgFits p k = true) (hn : p.nbMax = some n) :
    blocksOf k ≤ n := by
  obtain ⟨cap, hcap, rfl⟩ := Option.map_eq_some_iff.mp hn
  have hk : k ≤ cap := by simpa [msgFits, hcap] using hfit
  unfold blocksOf
  omega

/-! ### A frame and the command it decodes to -/

/-- Format `N`: the frame that decodes has no payload (30_encoding.md R71). -/
theorem encode_of_decodeN {i k : Instr} {op : Byte} {payload : List Byte} (h : decodeN k op payload = .command i)
    (hop : op = k.opcode) (hk : k.payload = []) : encode i = op :: payload := by
  cases payload with
  | nil =>
    obtain rfl : k = i := Decoded.command.inj h
    rw [encode, hop, hk]
  | cons => cases h

/-- A frame that decodes is the frame of the command it decodes to (30_encoding.md R71, R83). -/
theorem encode_of_decode {f : Frame} {i : Instr} (h : decode f = .command i) : encode i = f := by
  cases f with
  | nil => cases h
  | cons op payload =>
    simp only [decode] at h
    split_ifs at h with h1 h2 h3 h4 h5 h6 h7
    · exact encode_of_decodeN h h1 rfl
    · obtain rfl := Decoded.command.inj h
      rw [encode, h2]
      rfl
    · exact encode_of_decodeN h h3 rfl
    · exact encode_of_decodeN h h4 rfl
    · exact encode_of_decodeN h h5 rfl
    · exact encode_of_decodeN h h6 rfl
    · exact encode_of_decodeN h h7 rfl

/-! ### The meaning of a command as a relation -/

/-- `Executes s i t`: executing `i` in `s` can end in `t`. There is one constructor for each way a command ends, with the
tests it has passed. All rejections share one; which code when is told by `execPad_cases`, `execUnpack_cases` and
`execCompress_cases`. -/
inductive Executes (s : State) : Instr → State → Prop where
  | kgenKept (hkv : s.tbl.KV = true) : Executes s .kgen (s.send .ok [])
  | kgenFilled (hkv : s.tbl.KV = false) :
    Executes s .kgen ((s.setTbl { K := roundTable, KV := true }).send .ok [])
  | padded {msg : List Byte} (hfit : s.acceptsMsg msg = true) :
    Executes s (.pad msg) ((s.setEng { s.eng with
      M := padwords s.params.lenMode msg, NB := (padwords s.params.lenMode msg).length / 16, BP := 0 }).send .ok [])
  | initialised : Executes s .hinit ((s.setEng { s.eng with H := initialValue, HV := true }).send .ok [])
  | compressed (hkv : s.tbl.KV = true) (hhv : s.eng.HV = true) (hblk : s.eng.BP < s.eng.NB) :
    Executes s .compress ((s.setEng (compressBlock s.tbl.K s.eng)).send .ok [])
  | unpacked (hhv : s.eng.HV = true) : Executes s .unpack (s.send .ok (w2b s.eng.H.toList))
  | statusSent : Executes s .status (s.send .ok (w2b [s.status]))
  | resetOwn (hown : s.tableIsShared = false) :
    Executes s .reset (((s.setEng Engine.reset).setTbl (Table.reset s.params)).send .ok [])
  | resetShared (hshared : s.tableIsShared = true) : Executes s .reset ((s.setEng Engine.reset).send .ok [])
  | rejected {i : Instr} {c : Code} (hc : c ≠ .ok) (hi : i ≠ .reset) : Executes s i (s.reject c)

/-- Every command ends in a next state, in one of the ways of `Executes`. -/
theorem exec_executes (i : Instr) (s : State) : ∃ t, exec i s = .next t ∧ Executes s i t := by
  cases i with
  | kgen =>
    rcases execKgen_cases s with ⟨hkv, h⟩ | ⟨hkv, h⟩
    · exact ⟨_, h, .kgenKept hkv⟩
    · rw [generatedTable_eq_roundTable] at h
      exact ⟨_, h, .kgenFilled hkv⟩
  | pad msg =>
    rcases execPad_cases msg s with ⟨hfit, h⟩ | ⟨-, h⟩
    · exact ⟨_, h, .padded hfit⟩
    · exact ⟨_, h, .rejected nofun nofun⟩
  | hinit => exact ⟨_, rfl, .initialised⟩
  | compress =>
    rcases execCompress_cases s with ⟨-, h⟩ | ⟨-, -, -, h⟩ | ⟨hkv, hhv, hblk, h⟩
    · exact ⟨_, h, .rejected nofun nofun⟩
    · exact ⟨_, h, .rejected nofun nofun⟩
    · exact ⟨_, h, .compressed hkv hhv hblk⟩
  | unpack =>
    rcases execUnpack_cases s with ⟨hhv, h⟩ | ⟨-, h⟩
    · exact ⟨_, h, .unpacked hhv⟩
    · exact ⟨_, h, .rejected nofun nofun⟩
  | status => exact ⟨_, rfl, .statusSent⟩
  | reset =>
    refine ⟨_, rfl, ?_⟩
    rw [respondOk_eq, State.resetEngine]
    cases hs : s.tableIsShared with
    | false => exact .resetOwn hs
    | true => exact .resetShared hs

namespace Executes

variable {s t : State} {i : Instr}

theorem of_exec (hx : exec i s = .next t) : Executes s i t := by
  obtain ⟨u, hu, h⟩ := exec_executes i s
  rw [hu] at hx
  cases hx
  exact h

/-- A command touches its own engine and its own table only (60_exceptions.md R203). -/
theorem othersKept (h : Executes s i t) : OthersKept s t := by
  cases h with
  | kgenKept | unpacked | statusSent => exact send_othersKept s _ _
  | kgenFilled => exact (setTbl_othersKept s _).trans (send_othersKept _ _ _)
  | padded | initialised | compressed | resetShared | rejected =>
    exact (setEng_othersKept s _).trans (send_othersKept _ _ _)
  | resetOwn =>
    exact ((setEng_othersKept s _).trans (setTbl_othersKept _ _)).trans (send_othersKept _ _ _)

/-- A valid table is changed by no command but RESET, and by RESET only if no other engine shares it
(10_state.md R22, 60_exceptions.md R206). -/
theorem tables_eq (h : Executes s i t) (hkv : s.tbl.KV = true) (hi : i ≠ .reset ∨ s.tableIsShared = true) :
    t.tables = s.tables := by
  cases h with
  | kgenFilled hkv' => rw [hkv] at hkv'; cases hkv'
  | resetOwn hown => simp [hown] at hi
  | _ => rfl

end Executes

end Sys2Proof.Machine
end

section
/-! PROOFS. The invariant: it holds of every reset state, each update a command is made of keeps it, and so every step
does. -/

namespace Sys2Proof.Machine

/-! ### Reset states -/

theorem engineReset_ok (p : Params) : Engine.Ok p Engine.reset where
  bp := Nat.le_refl 0
  mem := reset_wf
  nb _ _ := Nat.zero_le _
  ecode := Nat.zero_le 3
  err := by simp

/-- The table of R98 if it is preloaded, else no valid table (10_state.md R44, R45). -/
theorem tableReset_KV (p : Params) : (Table.reset p).KV = p.kPreloaded := by
  cases h : p.kPreloaded <;> simp [Table.reset, h]

theorem tableReset_K {p : Params} (h : p.kPreloaded = true) : (Table.reset p).K = roundTable := by
  simp [Table.reset, h]

theorem tableReset_ok (p : Params) : Table.Ok p (Table.reset p) where
  filled h := tableReset_K (tableReset_KV p ▸ h)
  preloaded h := (tableReset_KV p).trans h

theorem resetWith_eng (p : Params) : (State.resetWith p).eng = Engine.reset := by
  rw [State.eng, List.getD_eq_getElem?_getD]
  exact List.getElem?_getD_replicate_default_eq _ _ _

theorem resetWith_tbl (p : Params) : (State.resetWith p).tbl = Table.reset p := by
  rw [State.tbl, List.getD_eq_getElem?_getD]
  exact List.getElem?_getD_replicate_default_eq _ _ _

/-- With every other flag and counter 0, the status word is `KV` (10_state.md R40, R45). -/
theorem resetWith_status (p : Params) :
    (State.resetWith p).status = if p.kPreloaded then 0x00000001#32 else 0x00000000#32 := by
  simp only [State.status, statusWord, resetWith_eng, resetWith_tbl, tableReset_KV, Engine.blk, engineReset_ECODE,
    engineReset_ERR, engineReset_HV, engineReset_BP, engineReset_NB]
  cases p.kPreloaded <;> decide

/-- Settles O47: engines and tables are copies of one reset record each. -/
theorem resetValues : Obligations.ResetValues := by
  unfold Obligations.ResetValues
  intro p
  refine ⟨fun e he => ?_, fun b hb => ?_, resetWith_status p⟩
  · rw [List.eq_of_mem_replicate he]
    exact ⟨rfl, rfl, rfl, rfl, rfl, rfl⟩
  · rw [List.eq_of_mem_replicate hb]
    exact ⟨tableReset_KV p, tableReset_K⟩

theorem resetWith_inv {p : Params} (hp : 1 ≤ p.nEngines) : (State.resetWith p).Inv where
  some_engine := hp
  engines_len := List.length_replicate
  tables_len := List.length_replicate
  cur_lt := hp
  engines_ok _ he := List.eq_of_mem_replicate he ▸ engineReset_ok p
  tables_ok _ hb := List.eq_of_mem_replicate hb ▸ tableReset_ok p
  inbox_ok := nofun
  outbox_ok := nofun

/-- Settles O48: the default parameters have one engine. -/
theorem invariantHoldsAfterReset : Obligations.InvariantHoldsAfterReset :=
  ⟨resetWith_inv (Nat.le_refl 1), fun _ => resetWith_inv⟩

/-! ### The updates of an engine keep its form -/

namespace Engine.Ok

variable {p : Params} {e : Engine}

theorem reject (h : Engine.Ok p e) {c : Code} (hc : c ≠ .ok) : Engine.Ok p { e with ERR := true, ECODE := c.ecode } :=
  { h with ecode := c.ecode_le, err := by simp [Code.ecode_ne_zero hc] }

theorem hinit (h : Engine.Ok p e) : Engine.Ok p { e with H := initialValue, HV := true } :=
  { h with }

/-- PAD of a message within `MSG_CAP` (41_codec.md R119, R120). -/
theorem pad (h : Engine.Ok p e) {msg : List Byte} (hfit : msgFits p msg.length = true) :
    Engine.Ok p { e with
      M := padwords p.lenMode msg, NB := (padwords p.lenMode msg).length / 16, BP := 0 } :=
  { h with
    bp := Nat.zero_le _
    mem := padwords_wf _ _
    nb := fun _ hn => padwords_blocks p.lenMode msg ▸ blocksOf_le_nbMax hfit hn }

/-- COMPRESS of a pending block: the test `BP < NB` keeps `BP <= NB` (10_state.md R30). -/
theorem compressBlock (h : Engine.Ok p e) (hblk : e.BP < e.NB) (k : Vector Word 64) :
    Engine.Ok p (compressBlock k e) :=
  { h with bp := hblk }

end Engine.Ok

/-! ### Response frames -/

theorem responseForm_code (c : Code) : ResponseForm [c.byte] := .inl ⟨c, rfl⟩

theorem responseForm_payload {payload : List Byte} (h : payload.length = 4 ∨ payload.length = 32) :
    ResponseForm (Code.ok.byte :: payload) := .inr ⟨payload, rfl, h⟩

/-! ### The updates of the state keep the invariant -/

namespace State.Inv

variable {s t : State}

theorem eng_exists (h : s.Inv) : s.cur < s.engines.length := h.engines_len ▸ h.cur_lt

theorem eng_ok (h : s.Inv) : Engine.Ok s.params s.eng := by
  rw [eng_of_getElem? (List.getElem?_eq_getElem h.eng_exists)]
  exact h.engines_ok _ (List.getElem_mem _)

theorem setEng (h : s.Inv) {e : Engine} (he : Engine.Ok s.params e) : (s.setEng e).Inv :=
  { h with
    engines_len := List.length_set.trans h.engines_len
    engines_ok := fun _ hm => (List.mem_or_eq_of_mem_set hm).elim (h.engines_ok _) (· ▸ he) }

theorem setTbl (h : s.Inv) {b : Table} (hb : Table.Ok s.params b) : (s.setTbl b).Inv :=
  { h with
    tables_len := List.length_set.trans h.tables_len
    tables_ok := fun _ hm => (List.mem_or_eq_of_mem_set hm).elim (h.tables_ok _) (· ▸ hb) }

theorem send (h : s.Inv) {c : Code} {payload : List Byte} (hf : ResponseForm (c.byte :: payload)) :
    (s.send c payload).Inv :=
  { h with outbox_ok := List.forall_mem_append.mpr ⟨h.outbox_ok, List.forall_mem_singleton.mpr ⟨h.cur_lt, hf⟩⟩ }

theorem reject (h : s.Inv) {c : Code} (hc : c ≠ .ok) : (s.reject c).Inv :=
  (h.setEng (h.eng_ok.reject hc)).send (responseForm_code c)

theorem resetAll (h : s.Inv) : s.resetAll.Inv :=
  { h with
    engines_len := List.length_replicate
    tables_len := List.length_replicate
    engines_ok := fun _ he => List.eq_of_mem_replicate he ▸ engineReset_ok s.params
    tables_ok := fun _ hb => List.eq_of_mem_replicate hb ▸ tableReset_ok s.params }

theorem withInbox (h : s.Inv) {rest : List Input} (hrest : ∀ i ∈ rest, i.Addressed s.params.nEngines) :
    { s with inbox := rest }.Inv :=
  { h with inbox_ok := hrest }

theorem onEngine (h : s.Inv) {e : Nat} {rest : List Input} (he : e < s.engines.length)
    (hrest : ∀ i ∈ rest, i.Addressed s.params.nEngines) : (s.onEngine e rest).Inv :=
  { h.withInbox hrest with cur_lt := h.engines_len ▸ he }

theorem inbox_tail (h : s.Inv) {inp : Input} {rest : List Input} (hin : s.inbox = inp :: rest) :
    ∀ i ∈ rest, i.Addressed s.params.nEngines :=
  fun i hi => h.inbox_ok i (hin ▸ List.mem_cons_of_mem inp hi)

theorem executes {i : Instr} (h : s.Inv) (hx : Executes s i t) : t.Inv := by
  cases hx with
  | kgenKept => exact h.send (responseForm_code .ok)
  | kgenFilled => exact (h.setTbl ⟨fun _ => rfl, fun _ => rfl⟩).send (responseForm_code .ok)
  | padded hfit => exact (h.setEng (h.eng_ok.pad hfit)).send (responseForm_code .ok)
  | initialised => exact (h.setEng h.eng_ok.hinit).send (responseForm_code .ok)
  | compressed _ _ hblk => exact (h.setEng (h.eng_ok.compressBlock hblk _)).send (responseForm_code .ok)
  | unpacked => exact h.send (responseForm_payload (.inr (by simp)))
  | statusSent => exact h.send (responseForm_payload (.inl (by simp)))
  | resetOwn =>
    exact ((h.setEng (engineReset_ok _)).setTbl (tableReset_ok _)).send (responseForm_code .ok)
  | resetShared => exact (h.setEng (engineReset_ok _)).send (responseForm_code .ok)
  | rejected hc => exact h.reject hc

theorem step (h : s.Inv) (hs : step s = .next t) : t.Inv := by
  rcases step_cases s with ⟨-, hn⟩ | ⟨a, rest, hin, hn⟩ | ⟨e, f, rest, -, -, hn⟩ | ⟨e, f, rest, hin, he, hn⟩
  · rw [hn] at hs; cases hs; exact h
  · rw [hn] at hs; cases hs; exact (h.withInbox (h.inbox_tail hin)).resetAll
  · rw [hn] at hs; cases hs
  · have hon := h.onEngine he (h.inbox_tail hin)
    rcases hn with ⟨i, -, hn⟩ | ⟨-, hn⟩ <;> rw [hn] at hs
    · exact hon.executes (.of_exec hs)
    · cases hs; exact hon.reject nofun

end State.Inv

/-- Settles O49: each entry of `inbox` is met by updates that keep the invariant. -/
theorem everyStepKeepsTheInvariant : Obligations.EveryStepKeepsTheInvariant :=
  fun _ _ h hs => h.step hs

end Sys2Proof.Machine
end

section
/-! PROOFS. What the commands leave alone in the flags, the tables, the scratch storage and the block pointer. -/

namespace Sys2Proof.Machine

/-! ### ERR and ECODE -/

/-- A command other than RESET that is answered OK keeps both (10_state.md R38): a rejection answers another code. -/
theorem Executes.errors_kept {s t : State} {i : Instr} (h : Executes s i t) (hi : i ≠ .reset) {payload : List Byte}
    (hans : Answers s t (Code.byte .ok :: payload)) : t.eng.ERR = s.eng.ERR ∧ t.eng.ECODE = s.eng.ECODE := by
  cases h with
  | kgenKept | kgenFilled | unpacked | statusSent => exact ⟨rfl, rfl⟩
  | padded | initialised | compressed => exact ⟨setEng_keeps Engine.ERR rfl, setEng_keeps Engine.ECODE rfl⟩
  | resetOwn | resetShared => exact absurd rfl hi
  | @rejected _ c hc =>
    have hbyte : c.byte = Code.byte .ok := by
      rw [Answers, reject_outbox] at hans
      simp only [List.append_cancel_left_eq, List.cons.injEq, Response.mk.injEq] at hans
      exact hans.1.2.1
    exact absurd (Code.byte_injective hbyte) hc

/-- Settles O13, by the ways a command can end. -/
theorem executedCommandKeepsErrAndEcode : Obligations.ExecutedCommandKeepsErrAndEcode :=
  fun _ _ _ _ hi hx hans => (Executes.of_exec hx).errors_kept hi hans

/-! ### Valid tables -/

/-- Settles O18: KGEN fills a table only while `KV = 0`. -/
theorem validTableIsNeverMutated : Obligations.ValidTableIsNeverMutated :=
  fun _ _ _ hkv hi hx => (Executes.of_exec hx).tables_eq hkv (.inl hi)

/-! ### Scratch storage -/

/-- The block's result, with the `W` and `a..h` it leaves, does not depend on the ones it found. -/
theorem compressBlock_scratch (k : Vector Word 64) (e : Engine) (w : Vector Word 64) (v : Work) :
    compressBlock k { e with W := w, wv := v } = compressBlock k e := by
  simp only [compressBlock, expand_loadBlock_eq e.M e.BP w e.W]

/-- COMPRESS under the tests of 42_compression.md R140. -/
theorem execCompress_of_ready {s : State} (hkv : s.tbl.KV = true) (hhv : s.eng.HV = true)
    (hblk : s.eng.BP < s.eng.NB) :
    execCompress s = .next ((s.setEng (compressBlock s.tbl.K s.eng)).send .ok []) := by
  simpa [hkv, hhv, hblk, Nat.not_le_of_lt hblk] using execCompress_cases s

/-- Settles O44: both sides process the block, and the write of its result covers the one of the scratch. -/
theorem scratchBeforeCompressNeverMatters : Obligations.ScratchBeforeCompressNeverMatters := by
  unfold Obligations.ScratchBeforeCompressNeverMatters
  intro s w v hkv hhv hblk hc
  have heng := setEng_eng s { s.eng with W := w, wv := v } hc
  have hready := execCompress_of_ready (s := s.setEng { s.eng with W := w, wv := v }) hkv
    (heng.symm ▸ hhv) (heng.symm ▸ hblk)
  simp only [exec]
  rw [hready, execCompress_of_ready hkv hhv hblk, heng, compressBlock_scratch, setEng_setEng, setEng_tbl]

/-! ### The block pointer -/

/-- Settles O53, by the ways a command can end. -/
theorem blockPointerOnlyCountsUp : Obligations.BlockPointerOnlyCountsUp := by
  unfold Obligations.BlockPointerOnlyCountsUp
  intro s t i hc hx
  cases Executes.of_exec hx with
  | kgenKept | kgenFilled | unpacked | statusSent => exact .inl rfl
  | initialised | rejected => exact .inl (setEng_keeps Engine.BP rfl)
  | padded => exact .inr (.inl ⟨⟨_, rfl⟩, by rw [send_eng, setEng_eng _ _ hc]⟩)
  | compressed _ _ hblk =>
    exact .inr (.inr (.inl ⟨rfl, hblk, by rw [send_eng, setEng_eng _ _ hc, compressBlock_BP],
      by rw [send_eng, setEng_eng _ _ hc, compressBlock_NB]⟩))
  | resetOwn => exact .inr (.inr (.inr ⟨rfl, by rw [send_eng, setTbl_eng, setEng_eng _ _ hc, engineReset_BP]⟩))
  | resetShared => exact .inr (.inr (.inr ⟨rfl, by rw [send_eng, setEng_eng _ _ hc, engineReset_BP]⟩))

/-! ### What clears a flag -/

/-- The executing engine's sticky flags stay set, its table stays as it is if it is valid, and everything else is
untouched. -/
structure KeepsFlags (s t : State) : Prop where
  err : s.eng.ERR = true → t.eng.ERR = true
  hv : s.eng.HV = true → t.eng.HV = true
  tables : s.tbl.KV = true → t.tables = s.tables
  others : OthersKept s t

theorem reject_keepsFlags {s : State} (hc : s.cur < s.engines.length) (c : Code) : KeepsFlags s (s.reject c) := by
  have hrej := reject_rejectedWith s c hc
  exact ⟨fun _ => by rw [hrej.engine], fun h => by rw [hrej.engine]; exact h, fun _ => rfl, hrej.others⟩

/-- No command but RESET clears a flag (10_state.md R23, R25, R37). -/
theorem Executes.keepsFlags {s t : State} {i : Instr} (h : Executes s i t) (hi : i ≠ .reset)
    (hc : s.cur < s.engines.length) : KeepsFlags s t := by
  have htables := fun hkv => h.tables_eq hkv (.inl hi)
  have hothers := h.othersKept
  cases h with
  | kgenKept | kgenFilled | unpacked | statusSent => exact ⟨id, id, htables, hothers⟩
  | padded | initialised | compressed =>
    exact ⟨by simp [setEng_eng _ _ hc], by simp [setEng_eng _ _ hc], htables, hothers⟩
  | resetOwn | resetShared => exact absurd rfl hi
  | rejected => exact reject_keepsFlags hc _

/-- What a step can do to the flags: the reset input, the RESET frame, or nothing that clears one. -/
theorem step_flags_cases {s t : State} {inp : Input} {rest : List Input} (hin : s.inbox = inp :: rest)
    (hs : step s = .next t) :
    (∃ a, inp = .resetInput a) ∨
    (∃ e, inp = .frame e [0x07#8] ∧ Executes (s.onEngine e rest) .reset t) ∨
    ∃ e, KeepsFlags (s.onEngine e rest) t := by
  rcases step_cases s with ⟨h, -⟩ | ⟨a, rest', h, -⟩ | ⟨e, f, rest', -, -, h⟩ | ⟨e, f, rest', h, he, hn⟩
  · rw [hin] at h; cases h
  · rw [hin] at h; cases h; exact .inl ⟨a, rfl⟩
  · rw [hs] at h; cases h
  · rw [hin] at h; cases h
    rcases hn with ⟨i, hd, hn⟩ | ⟨-, hn⟩ <;> rw [hs] at hn
    · have hx := Executes.of_exec hn.symm
      by_cases hi : i = .reset
      · subst hi
        exact .inr (.inl ⟨e, by rw [← encode_of_decode hd]; rfl, hx⟩)
      · exact .inr (.inr ⟨e, hx.keepsFlags hi he⟩)
    · cases hn
      exact .inr (.inr ⟨e, reject_keepsFlags he _⟩)

section

variable {s t : State} {j : Nat}

/-- An engine whose storage changed is the executing one. -/
theorem OthersKept.engine_changed (h : OthersKept s t) {e e' : Engine} (he : s.engines[j]? = some e)
    (he' : t.engines[j]? = some e') (hne : e ≠ e') : j = s.cur := by
  by_contra hj
  rw [h.engines j hj, he] at he'
  exact hne (Option.some.inj he')

/-- A table that changed is the one the executing engine reads. -/
theorem OthersKept.table_changed (h : OthersKept s t) {u u' : Table} (hu : s.tables[j]? = some u)
    (hu' : t.tables[j]? = some u') (hne : u ≠ u') : j = s.tableIndex := by
  by_contra hj
  rw [h.tables j hj, hu] at hu'
  exact hne (Option.some.inj hu')

/-- Where flags are kept, no engine's `ERR` or `HV` is cleared. -/
theorem KeepsFlags.engine (h : KeepsFlags s t) {e e' : Engine} (he : s.engines[j]? = some e)
    (he' : t.engines[j]? = some e') : (e.ERR = true → e'.ERR = true) ∧ (e.HV = true → e'.HV = true) := by
  by_cases hne : e = e'
  · subst hne; exact ⟨id, id⟩
  · obtain rfl := h.others.engine_changed he he' hne
    have heng' : t.eng = e' := eng_of_getElem? (h.others.cur ▸ he')
    rw [← eng_of_getElem? he, ← heng']
    exact ⟨h.err, h.hv⟩

/-- Tables that stay as they are while the executing engine's is valid: no `KV` is cleared. -/
theorem OthersKept.table_valid (h : OthersKept s t) (hv : s.tbl.KV = true → t.tables = s.tables) {u u' : Table}
    (hu : s.tables[j]? = some u) (hu' : t.tables[j]? = some u') (hkv : u.KV = true) : u'.KV = true := by
  by_cases hne : u = u'
  · exact hne ▸ hkv
  · obtain rfl := h.table_changed hu hu' hne
    rw [hv (tbl_of_getElem? hu ▸ hkv), hu] at hu'
    exact Option.some.inj hu' ▸ hkv

end

/-- Settles O52: a step that keeps the flags clears none, and RESET clears its own engine's and an unshared table's. -/
theorem flagsAreClearedOnlyByReset : Obligations.FlagsAreClearedOnlyByReset := by
  unfold Obligations.FlagsAreClearedOnlyByReset
  intro s t inp rest hin hs
  rcases step_flags_cases hin hs with hreset | ⟨e, rfl, hx⟩ | ⟨e, hk⟩
  · exact ⟨fun _ _ _ _ _ _ => .inl hreset, fun _ _ _ _ _ _ _ => .inl hreset⟩
  · refine ⟨fun j v v' hv hv' hcl => .inr ?_, fun j u u' hu hu' hkv hkv' => .inr ⟨e, rfl, ?_, fun hsh => ?_⟩⟩
    · obtain rfl := hx.othersKept.engine_changed hv hv' (by rintro rfl; simp at hcl)
      rfl
    · exact hx.othersKept.table_changed hu hu' (by rintro rfl; simp [hkv] at hkv')
    · have hvalid := hx.othersKept.table_valid (hx.tables_eq · (.inr ((tableIsShared_iff _).mpr hsh))) hu hu' hkv
      rw [hvalid] at hkv'
      cases hkv'
  · refine ⟨fun j v v' hv hv' hcl => ?_, fun j u u' hu hu' hkv hkv' => ?_⟩
    · obtain ⟨herr, hhv⟩ := hk.engine hv hv'
      rcases hcl with ⟨hset, hclear⟩ | ⟨hset, hclear⟩
      · rw [herr hset] at hclear; cases hclear
      · rw [hhv hset] at hclear; cases hclear
    · have hvalid := hk.others.table_valid hk.tables hu hu' hkv
      rw [hvalid] at hkv'
      cases hkv'

end Sys2Proof.Machine
end

section
/-! PROOFS. A step as the meaning of the frame it takes, and what one command can write. -/

namespace Sys2Proof.Machine

/-! ### A step takes the oldest frame -/

/-- A frame for an engine the system has is executed on that engine. -/
theorem step_of_frame {s : State} {e : Nat} {f : Frame} {rest : List Input} (hin : s.inbox = .frame e f :: rest)
    (he : e < s.engines.length) : step s = runFrame f (s.onEngine e rest) := by
  simp [step, takeInput, hin, deliver, he, State.onEngine]

theorem runFrame_of_command {f : Frame} {i : Instr} (hd : decode f = .command i) (s : State) :
    runFrame f s = exec i s := by
  simp [runFrame, hd]

theorem decode_of_decodeTableWord {nbits w : Nat} {i : Instr} (h : decodeTableWord nbits w = some i) :
    decode (frameOfTableWord nbits w) = .command i := by
  unfold decodeTableWord at h
  split at h
  · next k hd => rw [hd, Option.some.inj h]
  · cases h

/-- Settles O5: the frame decodes to the command. -/
theorem stepRunsTheDecodedCommand : Obligations.StepRunsTheDecodedCommand :=
  fun _ _ _ _ _ hin he hd => (step_of_frame hin he).trans (runFrame_of_command hd _)

/-- Settles O6: the placed frame is the oldest, and taking it for engine `cur` gives the state before it was placed. -/
theorem placedTableWordIsTheNextCommand : Obligations.PlacedTableWordIsTheNextCommand :=
  fun s _ _ _ hc hw =>
    (step_of_frame (s := s.withFetchWord _ _) rfl hc).trans (runFrame_of_command (decode_of_decodeTableWord hw) s)

/-- Settles O50: every entry of `inbox` is for an engine the system has, and each has a next state. -/
theorem noFrameStopsTheMachine : Obligations.NoFrameStopsTheMachine := by
  unfold Obligations.NoFrameStopsTheMachine
  intro s h
  rcases step_cases s with ⟨-, hn⟩ | ⟨a, rest, -, hn⟩ | ⟨e, f, rest, hin, he, -⟩ | ⟨e, f, rest, -, -, hn⟩
  · exact ⟨s, hn, rfl⟩
  · exact ⟨_, hn, rfl⟩
  · have hlt : e < s.params.nEngines := h.inbox_ok (.frame e f) (hin ▸ List.mem_cons_self)
    exact absurd (h.engines_len ▸ he) (Nat.not_le_of_lt hlt)
  · rcases hn with ⟨i, -, hn⟩ | ⟨-, hn⟩
    · obtain ⟨t, ht, hx⟩ := exec_executes i (s.onEngine e rest)
      exact ⟨t, hn.trans ht, hx.othersKept.params⟩
    · exact ⟨_, hn, rfl⟩

/-! ### Writers -/

/-- Settles O14, by the ways a command can end. -/
theorem eachStorageHasItsWriters : Obligations.EachStorageHasItsWriters := by
  unfold Obligations.EachStorageHasItsWriters
  intro s t i hx
  cases Executes.of_exec hx with
  | kgenKept | kgenFilled | unpacked | statusSent | resetOwn | resetShared => simp
  | padded =>
    refine ⟨absurd rfl, absurd (setEng_keeps _ rfl), absurd (setEng_keeps _ rfl), absurd (setEng_keeps _ rfl),
      absurd (setEng_keeps _ rfl), ?_⟩
    simp
  | initialised =>
    exact ⟨absurd rfl, fun _ => .inl rfl, fun _ => .inl rfl, absurd (setEng_keeps _ rfl), absurd (setEng_keeps _ rfl),
      absurd (setEng_keeps _ rfl), absurd (setEng_keeps _ rfl), absurd (setEng_keeps _ rfl)⟩
  | compressed =>
    exact ⟨absurd rfl, fun _ => .inr (.inl rfl), absurd (setEng_keeps _ rfl), fun _ => .inl rfl, fun _ => .inl rfl,
      absurd (setEng_keeps _ rfl), absurd (setEng_keeps _ rfl), fun _ => .inr (.inl rfl)⟩
  | rejected =>
    exact ⟨absurd rfl, absurd (setEng_keeps _ rfl), absurd (setEng_keeps _ rfl), absurd (setEng_keeps _ rfl),
      absurd (setEng_keeps _ rfl), absurd (setEng_keeps _ rfl), absurd (setEng_keeps _ rfl),
      absurd (setEng_keeps _ rfl)⟩

end Sys2Proof.Machine
end

section
/-! PROOFS. The meaning of a frame as a function of the executing engine and its table alone (`effect`): what it writes there
and what it answers. On it stand the repetition of one command and the exchange of two frames for different engines. -/

namespace Sys2Proof.Machine

/-! ### What one frame writes and answers -/

/-- What a frame leaves in the executing engine and in its table, and the response to it. -/
structure Effect where
  engine : Engine
  table : Table
  code : Code
  payload : List Byte

/-- A rejection with code `c` (60_exceptions.md R190). -/
def Effect.rejection (v : Engine) (b : Table) (c : Code) : Effect :=
  { engine := { v with ERR := true, ECODE := c.ecode }, table := b, code := c, payload := [] }

/-- The meaning of a command on engine `v` with table `b`. -/
def effect (i : Instr) (p : Params) (v : Engine) (b : Table) : Effect :=
  match i with
  | .kgen => ⟨v, if b.KV then b else { K := generatedTable, KV := true }, .ok, []⟩
  | .pad msg =>
    if msgFits p msg.length then
      ⟨{ v with M := padwords p.lenMode msg, NB := (padwords p.lenMode msg).length / 16, BP := 0 }, b, .ok, []⟩
    else .rejection v b .invalidArgument
  | .hinit => ⟨{ v with H := initialValue, HV := true }, b, .ok, []⟩
  | .compress =>
    if b.KV && v.HV then
      if v.BP < v.NB then ⟨compressBlock b.K v, b, .ok, []⟩ else .rejection v b .sequence
    else .rejection v b .notReady
  | .unpack => if v.HV then ⟨v, b, .ok, w2b v.H.toList⟩ else .rejection v b .notReady
  | .status => ⟨v, b, .ok, w2b [statusWord b v]⟩
  | .reset => ⟨Engine.reset, if p.kShared && decide (1 < p.nEngines) then b else Table.reset p, .ok, []⟩

/-- The meaning of a frame (30_encoding.md R83). -/
def frameEffect (f : Frame) (p : Params) (v : Engine) (b : Table) : Effect :=
  match decode f with
  | .command i => effect i p v b
  | .invalid _ => .rejection v b .invalidArgument

/-- Write an effect to the executing engine and its table, and send the response. -/
def State.perform (s : State) (x : Effect) : State :=
  ((s.setEng x.engine).setTbl x.table).send x.code x.payload

/-! `perform` -/
@[simp] theorem perform_params (s : State) (x : Effect) : (s.perform x).params = s.params := rfl
@[simp] theorem perform_tables (s : State) (x : Effect) :
    (s.perform x).tables = s.tables.set s.tableIndex x.table := rfl
@[simp] theorem perform_engines (s : State) (x : Effect) :
    (s.perform x).engines = s.engines.set s.cur x.engine := rfl
@[simp] theorem perform_cur (s : State) (x : Effect) : (s.perform x).cur = s.cur := rfl
@[simp] theorem perform_inbox (s : State) (x : Effect) : (s.perform x).inbox = s.inbox := rfl
@[simp] theorem perform_outbox (s : State) (x : Effect) :
    (s.perform x).outbox = s.outbox ++ [{ engine := s.cur, bytes := x.code.byte :: x.payload }] := rfl
@[simp] theorem perform_tableIndex (s : State) (x : Effect) : (s.perform x).tableIndex = s.tableIndex := rfl

theorem perform_eng {s : State} (hs : s.Selected) (x : Effect) : (s.perform x).eng = x.engine :=
  setEng_eng s x.engine hs.1

theorem perform_tbl {s : State} (hs : s.Selected) (x : Effect) : (s.perform x).tbl = x.table :=
  setTbl_tbl (s.setEng x.engine) x.table hs.2

theorem perform_selected {s : State} (hs : s.Selected) (x : Effect) : (s.perform x).Selected := by
  simpa [State.Selected] using hs

/-- Writing back what the table of the executing engine holds changes nothing. -/
theorem setTbl_self (s : State) : s.setTbl s.tbl = s := by
  by_cases h : s.tableIndex < s.tables.length
  · simp [State.setTbl, State.tbl, List.getD_eq_getElem?_getD, h]
  · simp [State.setTbl, List.set_eq_of_length_le (Nat.le_of_not_lt h)]

theorem tables_set_tbl (s : State) : s.tables.set s.tableIndex s.tbl = s.tables :=
  congrArg State.tables (setTbl_self s)

/-- An effect that leaves the table as it is. -/
theorem perform_of_table_kept (s : State) (v : Engine) (c : Code) (payload : List Byte) :
    s.perform ⟨v, s.tbl, c, payload⟩ = (s.setEng v).send c payload := by
  rw [State.perform, ← setEng_tbl s v, setTbl_self]

/-- An effect that leaves the engine as it is. -/
theorem perform_of_engine_kept (s : State) (b : Table) (c : Code) (payload : List Byte) :
    s.perform ⟨s.eng, b, c, payload⟩ = (s.setTbl b).send c payload := by
  rw [State.perform, setEng_self]

/-- An effect that is only a response. -/
theorem perform_of_kept (s : State) (c : Code) (payload : List Byte) :
    s.perform ⟨s.eng, s.tbl, c, payload⟩ = s.send c payload := by
  rw [perform_of_engine_kept, setTbl_self]

theorem perform_rejection (s : State) (c : Code) : s.perform (.rejection s.eng s.tbl c) = s.reject c :=
  perform_of_table_kept s _ c []

/-- A command reads and writes nothing but the executing engine, its table and the parameters (60_exceptions.md R203). -/
theorem exec_eq_perform (i : Instr) (s : State) :
    exec i s = .next (s.perform (effect i s.params s.eng s.tbl)) := by
  cases i with
  | kgen =>
    rcases execKgen_cases s with ⟨hkv, h⟩ | ⟨hkv, h⟩ <;> rw [exec, h]
    · simp [effect, hkv, perform_of_kept]
    · simp [effect, hkv, perform_of_engine_kept]
  | pad msg =>
    rcases execPad_cases msg s with ⟨hfit, h⟩ | ⟨hfit, h⟩ <;> rw [exec, h] <;> rw [State.acceptsMsg] at hfit
    · simp [effect, hfit, perform_of_table_kept]
    · simp [effect, hfit, perform_rejection]
  | hinit => simp only [exec, execHinit, effect, perform_of_table_kept, respondOk_eq]
  | compress =>
    rcases execCompress_cases s with ⟨hnot, h⟩ | ⟨hkv, hhv, hblk, h⟩ | ⟨hkv, hhv, hblk, h⟩ <;> rw [exec, h]
    · rcases hnot with hnot | hnot <;> simp [effect, hnot, perform_rejection]
    · simp [effect, hkv, hhv, Nat.not_lt_of_le hblk, perform_rejection]
    · simp [effect, hkv, hhv, hblk, perform_of_table_kept]
  | unpack =>
    rcases execUnpack_cases s with ⟨hhv, h⟩ | ⟨hhv, h⟩ <;> rw [exec, h]
    · simp [effect, hhv, perform_of_kept]
    · simp [effect, hhv, perform_rejection]
  | status => simp only [exec, execStatus, effect, perform_of_kept, respondOk_eq, State.status]
  | reset =>
    have hsh : (s.params.kShared && decide (1 < s.params.nEngines)) = s.tableIsShared := rfl
    simp only [exec, execReset, effect, State.resetEngine, respondOk_eq, hsh]
    split
    · rw [perform_of_table_kept]
    · rfl

theorem runFrame_eq_perform (f : Frame) (s : State) :
    runFrame f s = .next (s.perform (frameEffect f s.params s.eng s.tbl)) := by
  unfold runFrame frameEffect
  cases decode f with
  | command i => exact exec_eq_perform i s
  | invalid why => rw [perform_rejection]

/-! ### The same command twice -/

/-- Every command but COMPRESS finds, where it has been executed, what it would write itself, and repeats its answer
(20_memory.md R67). -/
theorem effect_idempotent {i : Instr} (hi : i ≠ .compress) (p : Params) (v : Engine) (b : Table) :
    effect i p (effect i p v b).engine (effect i p v b).table = effect i p v b := by
  cases i with
  | kgen => cases hkv : b.KV <;> simp [effect, hkv]
  | pad msg => cases hfit : msgFits p msg.length <;> simp [effect, hfit, Effect.rejection]
  | hinit => rfl
  | compress => exact absurd rfl hi
  | unpack => cases hhv : v.HV <;> simp [effect, hhv, Effect.rejection]
  | status => rfl
  | reset => simp only [effect]; split <;> rfl

/-- A command other than COMPRESS, executed twice, performs one effect twice. -/
theorem exec_twice {s t u : State} {i : Instr} (hs : s.Selected) (hi : i ≠ .compress) (hst : exec i s = .next t)
    (htu : exec i t = .next u) :
    t = s.perform (effect i s.params s.eng s.tbl) ∧ u = t.perform (effect i s.params s.eng s.tbl) := by
  rw [exec_eq_perform] at hst htu
  cases hst
  rw [perform_eng hs, perform_tbl hs, perform_params, effect_idempotent hi] at htu
  cases htu
  exact ⟨rfl, rfl⟩

/-- STATUS and UNPACK leave the table, and STATUS and an UNPACK that executes also the engine. -/
theorem effect_of_read {i : Instr} (hi : i = .status ∨ i = .unpack) (p : Params) (v : Engine) (b : Table) :
    (effect i p v b).table = b ∧ (i = .status ∨ v.HV = true → (effect i p v b).engine = v) := by
  rcases hi with rfl | rfl
  · exact ⟨rfl, fun _ => rfl⟩
  · cases hhv : v.HV <;> simp [effect, hhv, Effect.rejection]

/-- PAD of a message within `MSG_CAP` puts the block pointer to 0. -/
theorem effect_pad_BP {p : Params} {msg : List Byte} (hfit : WellFormed p (.pad msg) = true) (v : Engine) (b : Table) :
    (effect (.pad msg) p v b).engine.BP = 0 := by
  rw [WellFormed] at hfit
  simp [effect, hfit]

/-- Performing one effect twice leaves engines and tables as performing it once. -/
theorem perform_perform_same (s : State) (x : Effect) :
    ((s.perform x).perform x).engines = (s.perform x).engines ∧
      ((s.perform x).perform x).tables = (s.perform x).tables := by
  simp

/-- Settles O54: the second execution performs the effect of the first. -/
theorem readsHaveNoSideEffects : Obligations.ReadsHaveNoSideEffects := by
  unfold Obligations.ReadsHaveNoSideEffects
  intro s t u i hs hst htu
  refine ⟨fun hi => ?_, fun hi => ?_, ?_⟩
  · obtain ⟨rfl, rfl⟩ := exec_twice hs (by rintro rfl; simp at hi) hst htu
    obtain ⟨htable, hengine⟩ := effect_of_read hi s.params s.eng s.tbl
    refine ⟨⟨_, rfl, rfl⟩, ?_, fun h => ?_⟩
    · rw [perform_tables, htable, tables_set_tbl]
    · rw [perform_engines, hengine h]
      exact congrArg State.engines (setEng_self s)
  · obtain ⟨rfl, rfl⟩ := exec_twice hs (by rintro rfl; simp at hi) hst htu
    exact perform_perform_same s _
  · rintro msg rfl
    obtain ⟨rfl, rfl⟩ := exec_twice hs (by simp) hst htu
    refine ⟨(perform_perform_same s _).1, fun hfit => ?_⟩
    have hbp := effect_pad_BP hfit s.eng s.tbl
    exact ⟨by rw [perform_eng (perform_selected hs _), hbp], by rw [perform_eng hs, hbp]⟩

/-! ### Two frames for different engines -/

/-- The effect that a frame has on engine `e`. -/
def State.effectOn (s : State) (e : Nat) (f : Frame) : Effect :=
  frameEffect f s.params (s.onEngine e []).eng (s.onEngine e []).tbl

/-- The state after engine `e` has taken a frame, with `rest` still to come. -/
def State.take (s : State) (e : Nat) (f : Frame) (rest : List Input) : State :=
  (s.onEngine e rest).perform (s.effectOn e f)

theorem step_eq_take {s : State} {e : Nat} {f : Frame} {rest : List Input} (hin : s.inbox = .frame e f :: rest)
    (he : e < s.engines.length) : step s = .next (s.take e f rest) :=
  (step_of_frame hin he).trans (runFrame_eq_perform f _)

/-- Two steps that take two frames. -/
theorem runsTo_two_frames {s t : State} {e₁ e₂ : Nat} {f₁ f₂ : Frame} {rest : List Input}
    (h₁ : e₁ < s.engines.length) (h₂ : e₂ < s.engines.length)
    (hrun : RunsTo 2 { s with inbox := .frame e₁ f₁ :: .frame e₂ f₂ :: rest } t) :
    t = (s.take e₁ f₁ (.frame e₂ f₂ :: rest)).take e₂ f₂ rest := by
  obtain ⟨m, hm, n, hn, rfl⟩ := hrun
  have hfirst := step_eq_take (s := { s with inbox := .frame e₁ f₁ :: .frame e₂ f₂ :: rest }) rfl h₁
  cases hfirst.symm.trans hm
  have hsecond := step_eq_take (s := s.take e₁ f₁ (.frame e₂ f₂ :: rest)) rfl (by simpa [State.take] using h₂)
  cases hsecond.symm.trans hn
  rfl

/-- A command leaves a valid table that other engines read as it is (10_state.md R22, 60_exceptions.md R206). -/
theorem effect_table_of_shared {p : Params} {b : Table} (hsh : p.kShared = true) (hn : 1 < p.nEngines)
    (hkv : b.KV = true) (i : Instr) (v : Engine) : (effect i p v b).table = b := by
  cases i with
  | kgen => simp [effect, hkv]
  | reset => simp [effect, hsh, hn]
  | hinit | status => rfl
  | pad | compress | unpack => simp only [effect]; split_ifs <;> rfl

theorem frameEffect_table_of_shared {p : Params} {b : Table} (hsh : p.kShared = true) (hn : 1 < p.nEngines)
    (hkv : b.KV = true) (f : Frame) (v : Engine) : (frameEffect f p v b).table = b := by
  unfold frameEffect
  cases decode f with
  | command i => exact effect_table_of_shared hsh hn hkv i v
  | invalid => rfl

theorem State.Inv.tbl_mem {s : State} (h : s.Inv) : s.tbl ∈ s.tables := by
  have hlt : s.tableIndex < s.tables.length := by
    rw [h.tables_len, State.tableIndex, Params.nTables]
    split_ifs
    · exact Nat.one_pos
    · exact h.cur_lt
  rw [tbl_of_getElem? (List.getElem?_eq_getElem hlt)]
  exact List.getElem_mem hlt

/-- What a system of several engines needs so that a frame for one leaves the table of every other alone: if they share it,
it is valid (20_memory.md R65). -/
def SharedTableValid (s : State) : Prop :=
  s.params.kShared = true → 1 < s.params.nEngines ∧ ∀ e, (s.onEngine e []).tbl.KV = true

section
variable {s : State} {e₁ e₂ : Nat} (h : SharedTableValid s) (hne : e₁ ≠ e₂)
include h

theorem take_tables_of_shared (hsh : s.params.kShared = true) (e : Nat) (f : Frame) (rest : List Input) :
    (s.take e f rest).tables = s.tables := by
  obtain ⟨hn, hkv⟩ := h hsh
  rw [State.take, perform_tables, State.effectOn, frameEffect_table_of_shared hsh hn (hkv e)]
  exact tables_set_tbl (s.onEngine e rest)

theorem take_sharedTableValid (e : Nat) (f : Frame) (rest : List Input) : SharedTableValid (s.take e f rest) := by
  intro hsh
  obtain ⟨hn, hkv⟩ := h hsh
  refine ⟨hn, fun k => ?_⟩
  have htbl : ((s.take e f rest).onEngine k []).tbl = (s.onEngine k []).tbl := by
    rw [State.tbl, onEngine_tables, take_tables_of_shared h hsh]
    rfl
  rw [htbl]
  exact hkv k

include hne

/-- A frame for one engine leaves what a frame for another one does as it is (60_exceptions.md R203, R205). -/
theorem effectOn_take (f₁ f₂ : Frame) (rest : List Input) :
    (s.take e₁ f₁ rest).effectOn e₂ f₂ = s.effectOn e₂ f₂ := by
  have heng : ((s.take e₁ f₁ rest).onEngine e₂ []).eng = (s.onEngine e₂ []).eng := by
    simp [State.eng, State.take, List.getD_eq_getElem?_getD, hne]
  have htbl : ((s.take e₁ f₁ rest).onEngine e₂ []).tbl = (s.onEngine e₂ []).tbl := by
    by_cases hsh : s.params.kShared = true
    · rw [State.tbl, onEngine_tables, take_tables_of_shared h hsh]
      rfl
    · simp [State.tbl, State.tableIndex, State.take, List.getD_eq_getElem?_getD, hne, hsh]
  rw [State.effectOn, heng, htbl]
  rfl

/-! What two frames for different engines leave, each by the effect it has on its own engine in `s`. -/

theorem take_take_engines (f₁ f₂ : Frame) (r₁ r₂ : List Input) :
    ((s.take e₁ f₁ r₁).take e₂ f₂ r₂).engines =
      (s.engines.set e₁ (s.effectOn e₁ f₁).engine).set e₂ (s.effectOn e₂ f₂).engine := by
  rw [State.take, effectOn_take h hne]
  rfl

theorem take_take_tables (f₁ f₂ : Frame) (r₁ r₂ : List Input) :
    ((s.take e₁ f₁ r₁).take e₂ f₂ r₂).tables =
      if s.params.kShared then s.tables
      else (s.tables.set e₁ (s.effectOn e₁ f₁).table).set e₂ (s.effectOn e₂ f₂).table := by
  split_ifs with hsh
  · rw [take_tables_of_shared (take_sharedTableValid h e₁ f₁ r₁) hsh, take_tables_of_shared h hsh]
  · rw [State.take, effectOn_take h hne]
    simp [State.take, State.tableIndex, hsh]

theorem take_take_outbox (f₁ f₂ : Frame) (r₁ r₂ : List Input) :
    ((s.take e₁ f₁ r₁).take e₂ f₂ r₂).outbox = s.outbox ++
      [⟨e₁, (s.effectOn e₁ f₁).code.byte :: (s.effectOn e₁ f₁).payload⟩,
       ⟨e₂, (s.effectOn e₂ f₂).code.byte :: (s.effectOn e₂ f₂).payload⟩] := by
  rw [State.take, effectOn_take h hne]
  simp [State.take]

end

/-- Responses of different engines sent in either order are the same to each engine. -/
theorem sentBy_of_swapped {s t u : State} {r₁ r₂ : Response} (hne : r₁.engine ≠ r₂.engine)
    (ht : t.outbox = s.outbox ++ [r₁, r₂]) (hu : u.outbox = s.outbox ++ [r₂, r₁]) (e : Nat) :
    t.sentBy e = u.sentBy e := by
  by_cases h : r₁.engine = e
  · have h' : r₂.engine ≠ e := h ▸ hne.symm
    simp [State.sentBy, ht, hu, h, h']
  · simp [State.sentBy, ht, hu, h, List.filter_cons]

/-- Settles O55: the effect of each frame is the same in both orders, and they write to different places. -/
theorem differentEnginesDoNotInterfere : Obligations.DifferentEnginesDoNotInterfere := by
  unfold Obligations.DifferentEnginesDoNotInterfere
  intro s t u e₁ e₂ f₁ f₂ rest hinv h₁ h₂ hne hvalid ht hu
  have hn : 1 < s.params.nEngines := by omega
  rw [← hinv.engines_len] at h₁ h₂
  obtain rfl := runsTo_two_frames h₁ h₂ ht
  obtain rfl := runsTo_two_frames h₂ h₁ hu
  have hsv : SharedTableValid s := fun hsh =>
    ⟨hn, fun e => by
      have htbl : (s.onEngine e []).tbl = s.tbl := by simp [State.tbl, State.tableIndex, hsh]
      exact htbl ▸ hvalid hsh _ hinv.tbl_mem⟩
  have hne' := hne.symm
  refine ⟨?_, ?_, rfl, sentBy_of_swapped hne (take_take_outbox hsv hne ..) (take_take_outbox hsv hne' ..)⟩
  · rw [take_take_engines hsv hne, take_take_engines hsv hne', List.set_comm _ _ hne]
  · rw [take_take_tables hsv hne, take_take_tables hsv hne', List.set_comm _ _ hne]

end Sys2Proof.Machine
end

section
/-! PROOFS. The command encoding: decode and encode are inverse to each other, and which frames are no command
(30_encoding.md R71, R81 to R83). -/

namespace Sys2Proof.Machine

/-! ### Frames of commands -/

/-- With `encode_of_decode`, the other half of R71 and R83. -/
theorem decode_encode (i : Instr) : decode (encode i) = .command i := by
  cases i <;> rfl

/-- Settles O3: each half is one of the two round trips. -/
theorem decodeAndEncodeAgree : Obligations.DecodeAndEncodeAgree :=
  ⟨decode_encode, fun _ _ => encode_of_decode⟩

theorem decodeTableWord_of_frame {nbits w : Nat} {i : Instr} (h : frameOfTableWord nbits w = encode i) :
    decodeTableWord nbits w = some i := by
  rw [decodeTableWord, h, decode_encode]

/-- Settles O1: each frame, written out or taken from a table word, is the frame of its command. -/
theorem opcodeMapFramesDecode : Obligations.OpcodeMapFramesDecode :=
  ⟨decode_encode .kgen, decode_encode (.pad []), decode_encode (.pad [0x02#8]),
    decode_encode (.pad [0x61#8, 0x62#8, 0x63#8]), decode_encode .hinit, decode_encode .compress, decode_encode .unpack,
    decode_encode .status, decode_encode .reset,
    decodeTableWord_of_frame rfl, decodeTableWord_of_frame rfl, decodeTableWord_of_frame rfl,
    decodeTableWord_of_frame rfl, decodeTableWord_of_frame rfl, decodeTableWord_of_frame rfl,
    decodeTableWord_of_frame rfl, decodeTableWord_of_frame rfl, rfl, rfl⟩

/-! ### Frames that are no command -/

/-- The opcodes of format `N` (30_encoding.md R81). -/
def formatNOpcodes : List Byte := [0x01#8, 0x03#8, 0x04#8, 0x05#8, 0x06#8, 0x07#8]

theorem exists_instr_of_mem_formatNOpcodes {op : Byte} (h : op ∈ formatNOpcodes) :
    ∃ k : Instr, k.format = .N ∧ k.opcode = op := by
  simp only [formatNOpcodes, List.mem_cons, List.not_mem_nil, or_false] at h
  rcases h with rfl | rfl | rfl | rfl | rfl | rfl
  · exact ⟨.kgen, rfl, rfl⟩
  · exact ⟨.hinit, rfl, rfl⟩
  · exact ⟨.compress, rfl, rfl⟩
  · exact ⟨.unpack, rfl, rfl⟩
  · exact ⟨.status, rfl, rfl⟩
  · exact ⟨.reset, rfl, rfl⟩

/-- The opcode is reserved, or PAD's, or one of format `N`. -/
theorem opcode_cases (op : Byte) : (op = 0x00#8 ∨ 0x08 ≤ op.toNat) ∨ op = 0x02#8 ∨ op ∈ formatNOpcodes := by
  simp only [formatNOpcodes, List.mem_cons, List.not_mem_nil, or_false]
  bv_omega

theorem decode_formatN {k : Instr} (hk : k.format = .N) (payload : List Byte) :
    decode (k.opcode :: payload) = decodeN k k.opcode payload := by
  cases k with
  | pad msg => cases hk
  | _ => rfl

theorem decode_reserved {op : Byte} (h : op = 0x00#8 ∨ 0x08 ≤ op.toNat) (payload : List Byte) :
    decode (op :: payload) = .invalid (.reservedOpcode op) := by
  have hne : ∀ k : Byte, 1 ≤ k.toNat → k.toNat ≤ 7 → op ≠ k := by
    rintro _ hlo hhi rfl
    rcases h with rfl | h
    · simp at hlo
    · omega
  simp [decode, hne]

theorem decode_payloadNotAllowed {op : Byte} {payload : List Byte} (h : op ∈ formatNOpcodes) (hp : payload ≠ []) :
    decode (op :: payload) = .invalid (.payloadNotAllowed op) := by
  obtain ⟨k, hk, rfl⟩ := exists_instr_of_mem_formatNOpcodes h
  rw [decode_formatN hk]
  cases payload with
  | nil => exact absurd rfl hp
  | cons => rfl

theorem decode_formatN_alone {op : Byte} (h : op ∈ formatNOpcodes) : ∃ k, decode [op] = .command k := by
  obtain ⟨k, hk, rfl⟩ := exists_instr_of_mem_formatNOpcodes h
  exact ⟨k, decode_formatN hk []⟩

theorem decode_ne_command_iff (f : Frame) : (∀ i, decode f ≠ .command i) ↔ ∃ why, decode f = .invalid why := by
  cases decode f <;> simp

theorem runFrame_of_invalid {f : Frame} {why : Invalid} (hd : decode f = .invalid why) (s : State) :
    runFrame f s = .next (s.reject .invalidArgument) := by
  simp [runFrame, hd]

/-- Settles O2: a command's line is its frame decoded, and the other lines are the cases of the opcode. -/
theorem decoderFollowsItsDecisionList : Obligations.DecoderFollowsItsDecisionList := by
  unfold Obligations.DecoderFollowsItsDecisionList
  refine ⟨⟨_, rfl⟩, fun op p => ⟨fun h => h ▸ decode_encode (.pad p), fun hop hp => ?_,
    fun h => h ▸ decode_encode .kgen, fun h => h ▸ decode_encode .hinit, fun h => h ▸ decode_encode .compress,
    fun h => h ▸ decode_encode .unpack, fun h => h ▸ decode_encode .status, fun h => h ▸ decode_encode .reset,
    fun h => ⟨_, decode_reserved h []⟩⟩, fun f why s hd => runFrame_of_invalid hd s⟩
  rcases opcode_cases op with h | h | h
  · exact ⟨_, decode_reserved h p⟩
  · exact absurd h hop
  · exact ⟨_, decode_payloadNotAllowed h hp⟩

/-- The three cases of 30_encoding.md R82 are all. -/
theorem illFormed_iff (f : Frame) :
    (f = [] ∨ (∃ op p, f = op :: p ∧ (op = 0x00#8 ∨ 0x08 ≤ op.toNat)) ∨
      ∃ op p, f = op :: p ∧ p ≠ [] ∧ op ∈ formatNOpcodes) ↔ ∃ why, decode f = .invalid why := by
  constructor
  · rintro (rfl | ⟨op, p, rfl, h⟩ | ⟨op, p, rfl, hp, h⟩)
    · exact ⟨_, rfl⟩
    · exact ⟨_, decode_reserved h p⟩
    · exact ⟨_, decode_payloadNotAllowed h hp⟩
  · rintro ⟨why, hd⟩
    cases f with
    | nil => exact .inl rfl
    | cons op p =>
      rcases opcode_cases op with h | rfl | h
      · exact .inr (.inl ⟨op, p, rfl, h⟩)
      · cases hd.symm.trans (decode_encode (.pad p))
      · refine .inr (.inr ⟨op, p, rfl, ?_, h⟩)
        rintro rfl
        obtain ⟨k, hk⟩ := decode_formatN_alone h
        cases hd.symm.trans hk

/-- Settles O4: no command means an invalid frame, and an invalid frame is rejected. -/
theorem illFormedFramesAreRejected : Obligations.IllFormedFramesAreRejected := by
  unfold Obligations.IllFormedFramesAreRejected
  refine fun f => ⟨(illFormed_iff f).trans (decode_ne_command_iff f).symm, fun s e rest hin he hno => ?_⟩
  obtain ⟨why, hd⟩ := (decode_ne_command_iff f).mp hno
  exact ⟨_, (step_of_frame hin he).trans (runFrame_of_invalid hd _), reject_rejectedWith _ _ he⟩

/-! ### Responses -/

/-- A command is answered once: in its own response format if it executes, with the code alone if not
(30_encoding.md R72, R81). -/
theorem Executes.answers {s t : State} {i : Instr} (h : Executes s i t) :
    ∃ c payload, Answers s t (Code.byte c :: payload) ∧ (c ≠ .ok → payload = []) ∧
      (c = .ok → payload.length = i.respFormat.payloadBytes) := by
  cases h with
  | rejected hc => exact ⟨_, [], rfl, fun _ => rfl, fun hok => absurd hok hc⟩
  | unpacked => exact ⟨.ok, _, rfl, absurd rfl, fun _ => by simp [Instr.respFormat, RespFormat.payloadBytes]⟩
  | statusSent => exact ⟨.ok, _, rfl, absurd rfl, fun _ => rfl⟩
  | _ => exact ⟨.ok, [], rfl, absurd rfl, fun _ => rfl⟩

/-- Settles O10: a command answers in its format, and any other frame with INVALID_ARGUMENT alone. -/
theorem everyFrameIsAnsweredOnce : Obligations.EveryFrameIsAnsweredOnce := by
  unfold Obligations.EveryFrameIsAnsweredOnce
  intro s e f rest hin he
  rw [step_of_frame hin he]
  cases hd : decode f with
  | command i =>
    rw [runFrame_of_command hd]
    obtain ⟨t, ht, hx⟩ := exec_executes i (s.onEngine e rest)
    obtain ⟨c, payload, hout, hrej, hok⟩ := hx.answers
    exact ⟨t, c, payload, ht, hout, hrej, fun hc => ⟨i, rfl, hok hc⟩⟩
  | invalid why => exact ⟨_, .invalidArgument, [], runFrame_of_invalid hd _, rfl, fun _ => rfl, nofun⟩

end Sys2Proof.Machine
end

section
/-! PROOFS. The padded message word by word (30_encoding.md R76, 41_codec.md R110 to R118). -/

namespace Sys2Proof.Machine

/-! ### Words of a byte sequence -/

/-- Word `j` of a byte sequence, absent bytes read as zero (41_codec.md R110, R111). -/
def wordAt (bs : List Byte) (j : Nat) : Word :=
  packWord (bs.getD (4 * j) 0) (bs.getD (4 * j + 1) 0) (bs.getD (4 * j + 2) 0) (bs.getD (4 * j + 3) 0)

theorem wordAt_congr {bs cs : List Byte} {j k : Nat}
    (h : ∀ i < 4, bs.getD (4 * j + i) 0 = cs.getD (4 * k + i) 0) : wordAt bs j = wordAt cs k := by
  have h0 := h 0 (by decide)
  have h1 := h 1 (by decide)
  have h2 := h 2 (by decide)
  have h3 := h 3 (by decide)
  rw [Nat.add_zero, Nat.add_zero] at h0
  rw [wordAt, wordAt, h0, h1, h2, h3]

theorem wordAt_drop (bs : List Byte) (j : Nat) : wordAt (bs.drop (4 * j)) 0 = wordAt bs j :=
  wordAt_congr fun i _ => by simp [List.getD_eq_getElem?_getD]

theorem wordAt_append_left {bs cs : List Byte} {j : Nat} (h : 4 * j + 4 ≤ bs.length) :
    wordAt (bs ++ cs) j = wordAt bs j :=
  wordAt_congr fun i hi => List.getD_append _ _ _ _ (by omega)

theorem wordAt_eq_zero {bs : List Byte} {j : Nat} (h : bs.length ≤ 4 * j) : wordAt bs j = 0#32 := by
  have hz : wordAt bs j = wordAt [] 0 :=
    wordAt_congr fun i _ => by rw [List.getD_eq_default _ _ (by omega), List.getD_nil]
  exact hz

theorem b2w_eq_cons {bs : List Byte} (h : bs ≠ []) : b2w bs = wordAt bs 0 :: b2w (bs.drop 4) := by
  match bs with
  | [_] | [_, _] | [_, _, _] | _ :: _ :: _ :: _ :: _ => rfl

theorem b2w_drop (bs : List Byte) (j : Nat) : (b2w bs).drop j = b2w (bs.drop (4 * j)) := by
  induction j generalizing bs with
  | zero => rfl
  | succ j ih =>
    by_cases h : bs = []
    · simp [h, b2w]
    · rw [b2w_eq_cons h, List.drop_succ_cons, ih, List.drop_drop, Nat.mul_succ, Nat.add_comm]

theorem b2w_getElem? {bs : List Byte} {j : Nat} (h : 4 * j < bs.length) : (b2w bs)[j]? = some (wordAt bs j) := by
  have hne : bs.drop (4 * j) ≠ [] := by simpa using h
  calc (b2w bs)[j]? = ((b2w bs).drop j)[0]? := by rw [List.getElem?_drop, Nat.add_zero]
    _ = some (wordAt bs j) := by rw [b2w_drop, b2w_eq_cons hne, List.getElem?_cons_zero, wordAt_drop]

/-! ### Words of the padded message -/

/-- The words before the length field, in bytes (41_codec.md R119). -/
theorem lenfield_offset (n : Nat) : 4 * (16 * ((n + 8) / 64 + 1) - 2) = n + 1 + zeroBytes n := by
  have hz := zeroBytes_lt n
  have hpad := zeroBytes_spec n
  omega

/-- Before the length field, the padded message is the message and `0x80`; the zeros are absent bytes. -/
theorem padbytes_getD (mode : LenMode) {msg : List Byte} {i : Nat} (h : i < msg.length + 1 + zeroBytes msg.length) :
    (padbytes mode msg).getD i 0 = (msg ++ [0x80#8]).getD i 0 := by
  rw [padbytes, List.getD_append _ _ _ _ (by simp; omega)]
  by_cases hi : i < msg.length + 1
  · exact List.getD_append _ _ _ _ (by simpa using hi)
  · rw [List.getD_append_right _ _ _ _ (by simpa using hi), List.getD_replicate _ (by simp; omega),
      List.getD_eq_default _ _ (by simpa using hi)]
    rfl

theorem padwords_getElem? (mode : LenMode) {msg : List Byte} {j : Nat}
    (h : j < 16 * ((msg.length + 8) / 64 + 1) - 2) :
    (padwords mode msg)[j]? = some (wordAt (msg ++ [0x80#8]) j) := by
  have hoff := lenfield_offset msg.length
  rw [padwords, b2w_getElem? (by rw [padbytes_length]; omega)]
  exact congrArg some (wordAt_congr fun i hi => padbytes_getD mode (by omega))

theorem padwords_drop (mode : LenMode) (msg : List Byte) :
    (padwords mode msg).drop (16 * ((msg.length + 8) / 64 + 1) - 2) = b2w (lenfield mode msg.length) := by
  rw [padwords, b2w_drop, lenfield_offset, padbytes, List.drop_left' (by simp; omega)]

/-- Settles O30: before the length field, each word is that of the message followed by `0x80`. -/
theorem paddedMessageWordByWord : Obligations.PaddedMessageWordByWord := by
  unfold Obligations.PaddedMessageWordByWord
  intro mode msg j
  refine ⟨fun hj => ?_, fun hj => ?_, fun hj hj' => ?_, padwords_drop mode msg⟩
  · rw [padwords_getElem? mode (by omega), wordAt_append_left (by omega), b2w_getElem? (by omega)]
  · rw [padwords_getElem? mode (by omega), ← hj, ← List.drop_append_of_le_length (by omega),
      b2w_getElem? (by simp; omega), wordAt_drop]
  · rw [padwords_getElem? mode hj', wordAt_eq_zero (by simp; omega)]

end Sys2Proof.Machine
end

section
/-! PROOFS. The constant generator: the roots, the primality test and the scan, the table, and KGEN
(40_constant_generator.md R90 to R100). -/

namespace Sys2Proof.Machine

/-! ### Integer roots -/

/-- The bit-by-bit search keeps the root between `r` and `r + 2^bits`, so it ends at the root. -/
theorem rootBits_eq_nthRoot {k x bits r : Nat} (hle : r ^ k ≤ x) (hlt : x < (r + 2 ^ bits) ^ k) :
    rootBits k x bits r = Nat.nthRoot k x := by
  induction bits generalizing r with
  | zero => exact (Nat.nthRoot_eq_of_le_of_lt hle hlt).symm
  | succ bits ih =>
    rw [rootBits]
    split_ifs with hbit
    · exact ih hbit (by rwa [Nat.add_assoc, ← Nat.two_mul, ← Nat.pow_succ'])
    · exact ih hle (Nat.lt_of_not_le hbit)

/-- The search starts with enough bits. -/
theorem lt_two_pow_log2_div_pow {k : Nat} (hk : 0 < k) (x : Nat) : x < (2 ^ (x.log2 / k + 1)) ^ k :=
  calc x < 2 ^ (x.log2 + 1) := Nat.lt_log2_self
    _ ≤ 2 ^ ((x.log2 / k + 1) * k) :=
      Nat.pow_le_pow_right Nat.two_pos (Nat.lt_mul_of_div_lt (Nat.lt_succ_self _) hk)
    _ = (2 ^ (x.log2 / k + 1)) ^ k := Nat.pow_mul ..

theorem rootBits_log2_eq_nthRoot {k : Nat} (hk : 0 < k) (x : Nat) :
    rootBits k x (x.log2 / k + 1) 0 = Nat.nthRoot k x :=
  rootBits_eq_nthRoot (by simp [Nat.zero_pow hk]) (by simpa using lt_two_pow_log2_div_pow hk x)

/-- `isqrt` is the integer square root (40_constant_generator.md R91). -/
theorem isqrt_eq_sqrt (n : Nat) : isqrt n = Nat.sqrt n := by
  have hroot : isqrt n = Nat.nthRoot 2 n := rootBits_log2_eq_nthRoot Nat.two_pos n
  rw [hroot, Nat.eq_sqrt']
  exact ⟨Nat.pow_nthRoot_le (.inl two_ne_zero), Nat.lt_pow_nthRoot_add_one two_ne_zero n⟩

/-- `icbrt` is the integer cube root (40_constant_generator.md R95). -/
theorem icbrt_eq_nthRoot (x : Nat) : icbrt x = Nat.nthRoot 3 x :=
  rootBits_log2_eq_nthRoot three_pos x

theorem le_icbrt_iff {r x : Nat} : r ≤ icbrt x ↔ r ^ 3 ≤ x := by
  rw [icbrt_eq_nthRoot, Nat.le_nthRoot_iff three_ne_zero]

/-! ### The primality test and the scan -/

/-- The divisors the test tries are those from 2 to the square root inclusive. -/
theorem isprime_iff (n : Nat) : isprime n = true ↔ ∀ d, 2 ≤ d → d ≤ Nat.sqrt n → ¬ d ∣ n := by
  have hrange (d : Nat) : (2 ≤ d ∧ d < 2 + (Nat.sqrt n - 1)) ↔ (2 ≤ d ∧ d ≤ Nat.sqrt n) := by omega
  simp only [isprime, isqrt_eq_sqrt, List.all_eq_true, List.mem_range'_1, hrange, and_imp, bne_iff_ne, ne_eq,
    Nat.dvd_iff_mod_eq_zero]

theorem isprime_iff_prime {n : Nat} (h : 2 ≤ n) : isprime n = true ↔ Nat.Prime n := by
  rw [isprime_iff, Nat.prime_def_le_sqrt, and_iff_right h]

/-- Settles O19: the trial divisors are bounded by the integer square root. -/
theorem trialDivisionTest : Obligations.TrialDivisionTest := by
  unfold Obligations.TrialDivisionTest
  refine ⟨fun n => Nat.eq_sqrt.mp (isqrt_eq_sqrt n), fun n => ?_⟩
  simp only [isprime_iff, Nat.le_sqrt, Nat.dvd_iff_mod_eq_zero, ne_eq]

/-- The scan filters its candidates and stops when it has enough (40_constant_generator.md R92). -/
theorem scanPrimes_eq_take_filter (fuel n need : Nat) :
    scanPrimes fuel n need = ((List.range' n fuel).filter isprime).take need := by
  induction fuel generalizing n need with
  | zero => simp [scanPrimes]
  | succ fuel ih =>
    cases need with
    | zero => simp [scanPrimes]
    | succ need => cases hn : isprime n <;> simp [scanPrimes, List.range'_succ, hn, ih]

/-- Settles O20: trial division up to the square root is primality, and the scan filters by it. -/
theorem scanKeepsExactlyThePrimes : Obligations.ScanKeepsExactlyThePrimes := by
  unfold Obligations.ScanKeepsExactlyThePrimes
  refine ⟨fun n => isprime_iff_prime, fun fuel n need hn => ?_⟩
  rw [scanPrimes_eq_take_filter]
  refine congrArg (List.take need) (List.filter_congr fun m hm => ?_)
  have hm2 : 2 ≤ m := hn.trans (List.mem_range'_1.mp hm).1
  rw [Bool.eq_iff_iff, isprime_iff_prime hm2, decide_eq_true_iff]

/-! ### The table -/

/-- Settles O21, by running the scan and the generator. -/
theorem generatorGivesThePrintedTable : Obligations.GeneratorGivesThePrintedTable :=
  ⟨by decide +kernel, generatedTable_eq_roundTable⟩

theorem primes64_length : primes64.length = 64 :=
  generatorGivesThePrintedTable.1 ▸ rfl

/-- Entry `i` of the generated table is the constant of prime `i` (40_constant_generator.md R90). -/
theorem exists_prime_generatedTable_getElem? {i : Nat} (hi : i < 64) :
    ∃ p, primes64[i]? = some p ∧ generatedTable.toList[i]? = some (roundConstant p) := by
  have hp : primes64[i]? = some primes64[i] := List.getElem?_eq_getElem (primes64_length.symm ▸ hi)
  refine ⟨_, hp, ?_⟩
  rw [generatedTable, Vector.toList_mk, List.getElem?_map, hp]
  rfl

theorem roundConstant_toNat (p : Nat) : (roundConstant p).toNat = icbrt (p * 2 ^ 96) % 2 ^ 32 :=
  BitVec.toNat_ofNat ..

/-- Settles O22: `icbrt` is the integer cube root, and the table is made of it entry by entry. -/
theorem integerCubeRootForm : Obligations.IntegerCubeRootForm := by
  unfold Obligations.IntegerCubeRootForm
  refine ⟨fun x => ⟨le_icbrt_iff.mp le_rfl, fun _ => le_icbrt_iff.mpr⟩, fun i hi => ?_⟩
  obtain ⟨p, hp, hk⟩ := exists_prime_generatedTable_getElem? hi
  exact ⟨p, hp, by rw [hk, Option.map_some, roundConstant_toNat]⟩

/-! ### Real cube roots -/

theorem icbrt_eq_floor (x : Nat) : icbrt x = ⌊(x : ℝ) ^ ((1 : ℝ) / 3)⌋₊ := by
  refine eq_of_forall_le_iff fun r => ?_
  have hx : (0 : ℝ) ≤ x := x.cast_nonneg
  rw [le_icbrt_iff, Nat.le_floor_iff (Real.rpow_nonneg hx _), one_div,
    Real.le_rpow_inv_iff_of_pos r.cast_nonneg hx three_pos]
  exact_mod_cast Iff.rfl

theorem cubeRoot_mul_two_pow (p : Nat) :
    ((p * 2 ^ 96 : Nat) : ℝ) ^ ((1 : ℝ) / 3) = (p : ℝ) ^ ((1 : ℝ) / 3) * 2 ^ 32 := by
  have hroot : ((2 : ℝ) ^ 96) ^ ((1 : ℝ) / 3) = 2 ^ 32 := by
    rw [← Real.rpow_natCast, ← Real.rpow_mul zero_le_two, ← Real.rpow_natCast]
    norm_num
  rw [Nat.cast_mul, Real.mul_rpow p.cast_nonneg (Nat.cast_nonneg _), Nat.cast_pow, Nat.cast_ofNat, hroot]

/-- Scaling by a natural `n`: the integer part becomes a multiple of `n`, the fraction stays below `n`. -/
theorem floor_fract_mul {y : ℝ} (hy : 0 ≤ y) {n : Nat} (hn : 0 < n) : ⌊Int.fract y * n⌋₊ = ⌊y * n⌋₊ % n := by
  have hfract : 0 ≤ Int.fract y * n := mul_nonneg (Int.fract_nonneg y) n.cast_nonneg
  have hlt : ⌊Int.fract y * n⌋₊ < n := by
    rw [Nat.floor_lt hfract]
    exact mul_lt_of_lt_one_left (Nat.cast_pos.mpr hn) (Int.fract_lt_one y)
  have hsplit : y * n = Int.fract y * n + (⌊y⌋₊ * n : Nat) := by
    rw [Nat.cast_mul, natCast_floor_eq_intCast_floor hy, ← add_mul, Int.fract_add_floor]
  rw [hsplit, Nat.floor_add_natCast hfract, Nat.add_mul_mod_self_right, Nat.mod_eq_of_lt hlt]

/-- The integer form of R95 computes the formula of R94. -/
theorem roundConstant_toNat_eq_floor (p : Nat) :
    (roundConstant p).toNat = ⌊Int.fract ((p : ℝ) ^ ((1 : ℝ) / 3)) * 2 ^ 32⌋₊ := by
  have hfloor := floor_fract_mul (Real.rpow_nonneg p.cast_nonneg ((1 : ℝ) / 3)) (Nat.two_pow_pos 32)
  rw [Nat.cast_pow, Nat.cast_ofNat] at hfloor
  rw [hfloor, roundConstant_toNat, icbrt_eq_floor, cubeRoot_mul_two_pow]

/-- Settles O23: the floor is the number of a 32-bit word. -/
theorem constantIsTheFractionOfTheRealCubeRoot : Obligations.ConstantIsTheFractionOfTheRealCubeRoot := by
  unfold Obligations.ConstantIsTheFractionOfTheRealCubeRoot
  refine ⟨fun p => ⟨roundConstant_toNat_eq_floor p, ?_⟩, fun i hi => ?_⟩
  · exact roundConstant_toNat_eq_floor p ▸ (roundConstant p).isLt
  · obtain ⟨p, hp, hk⟩ := exists_prime_generatedTable_getElem? hi
    exact ⟨p, hp, by rw [hk, Option.map_some, roundConstant_toNat_eq_floor]⟩

/-! ### KGEN -/

theorem exec_kgen_of_invalid {s : State} (hkv : s.tbl.KV = false) :
    exec .kgen s = .next ((s.setTbl { K := roundTable, KV := true }).send .ok []) := by
  obtain ⟨-, hx⟩ := (execKgen_cases s).resolve_left fun h => Bool.false_ne_true (hkv.symm.trans h.1)
  rw [exec, hx, generatedTable_eq_roundTable]

theorem exec_kgen_of_valid {s : State} (hkv : s.tbl.KV = true) : exec .kgen s = .next (s.send .ok []) := by
  obtain ⟨-, hx⟩ := (execKgen_cases s).resolve_right fun h => Bool.false_ne_true (h.1.symm.trans hkv)
  rw [exec, hx]

/-- Settles O16: the only write is to the table, which exists. -/
theorem kgenFillsTheTable : Obligations.KgenFillsTheTable := by
  unfold Obligations.KgenFillsTheTable
  intro s hsel hkv
  obtain ⟨-, htbl⟩ := hsel
  refine ⟨_, exec_kgen_of_invalid hkv, ?_, rfl, ?_, rfl⟩
  · rw [send_tbl, setTbl_tbl s _ htbl]
  · exact (setTbl_othersKept s _).trans (send_othersKept _ _ _)

/-- Settles O17: KGEN with a valid table only answers. -/
theorem kgenWithAValidTableChangesNothing : Obligations.KgenWithAValidTableChangesNothing :=
  fun _ => exec_kgen_of_valid

end Sys2Proof.Machine
end

section
/-! PROOFS. The codec: bytes packed into words and back, the padding, and the commands PAD and UNPACK
(41_codec.md R110 to R122). -/

namespace Sys2Proof.Machine

/-! ### One word and its four bytes -/

/-- A word as a number, byte 0 first (41_codec.md R110). -/
theorem packWord_toNat (b0 b1 b2 b3 : Byte) :
    (packWord b0 b1 b2 b3).toNat = b0.toNat * 2 ^ 24 + b1.toNat * 2 ^ 16 + b2.toNat * 2 ^ 8 + b3.toNat := by
  have hor (x : Nat) (b : Byte) : x <<< 8 ||| b.toNat = x * 2 ^ 8 + b.toNat := by
    rw [← Nat.shiftLeft_add_eq_or_of_lt b.isLt, Nat.shiftLeft_eq]
  simp only [packWord, BitVec.toNat_append, hor]
  omega

/-- Byte `k` of a word, most significant first (41_codec.md R112). -/
theorem unpackWord_getElem? (w : Word) {k : Nat} (hk : k < 4) :
    (unpackWord w)[k]? = some (BitVec.ofNat 8 (w.toNat / 2 ^ (24 - 8 * k))) := by
  have hbyte (start : Nat) : w.extractLsb' start 8 = BitVec.ofNat 8 (w.toNat / 2 ^ start) := by
    rw [← Nat.shiftRight_eq_div_pow]; rfl
  simp only [unpackWord, hbyte]
  match k with
  | 0 | 1 | 2 | 3 => rfl

theorem packWord_unpacked (w : Word) :
    packWord (w.extractLsb' 24 8) (w.extractLsb' 16 8) (w.extractLsb' 8 8) (w.extractLsb' 0 8) = w := by
  apply BitVec.eq_of_toNat_eq
  have hw := w.isLt
  simp only [packWord_toNat, BitVec.extractLsb'_toNat, Nat.shiftRight_eq_div_pow]
  omega

theorem unpackWord_packWord (b0 b1 b2 b3 : Byte) : unpackWord (packWord b0 b1 b2 b3) = [b0, b1, b2, b3] := by
  have h0 := b0.isLt
  have h1 := b1.isLt
  have h2 := b2.isLt
  have h3 := b3.isLt
  simp only [unpackWord, List.cons.injEq, and_true, BitVec.toNat_eq, BitVec.extractLsb'_toNat, packWord_toNat,
    Nat.shiftRight_eq_div_pow]
  omega

/-! ### Sequences of words and bytes -/

/-- Settles O24: a word within `b2w` is packed from its four bytes. -/
theorem bytesToWordsPacksBigEndian : Obligations.BytesToWordsPacksBigEndian := by
  unfold Obligations.BytesToWordsPacksBigEndian
  intro bs
  refine ⟨b2w_length bs, fun j hj => ?_⟩
  rw [b2w_length] at hj
  rw [b2w_getElem? (by omega), Option.map_some, wordAt, packWord_toNat]

theorem w2b_cons (w : Word) (ws : List Word) : w2b (w :: ws) = unpackWord w ++ w2b ws := rfl

theorem w2b_getElem? {ws : List Word} {j k : Nat} {w : Word} (hw : ws[j]? = some w) (hk : k < 4) :
    (w2b ws)[4 * j + k]? = some (BitVec.ofNat 8 (w.toNat / 2 ^ (24 - 8 * k))) := by
  induction ws generalizing j with
  | nil => cases hw
  | cons v ws ih =>
    have hlen : (unpackWord v).length = 4 := rfl
    rw [w2b_cons]
    cases j with
    | zero =>
      obtain rfl : v = w := Option.some.inj hw
      rw [List.getElem?_append_left (by omega), Nat.mul_zero, Nat.zero_add, unpackWord_getElem? v hk]
    | succ j =>
      rw [List.getElem?_append_right (by omega), hlen, show 4 * (j + 1) + k - 4 = 4 * j + k by omega]
      exact ih hw

/-- Settles O25, by induction on the words. -/
theorem wordsToBytesUnpacksBigEndian : Obligations.WordsToBytesUnpacksBigEndian :=
  fun ws => ⟨w2b_length ws, fun _ _ _ => w2b_getElem?⟩

theorem b2w_unpackWord_append (w : Word) (bs : List Byte) : b2w (unpackWord w ++ bs) = w :: b2w bs :=
  congrArg (· :: b2w bs) (packWord_unpacked w)

theorem b2w_w2b (ws : List Word) : b2w (w2b ws) = ws := by
  induction ws with
  | nil => rfl
  | cons w ws ih => rw [w2b_cons, b2w_unpackWord_append, ih]

theorem w2b_injective : Function.Injective w2b :=
  Function.LeftInverse.injective b2w_w2b

/-- Packing and unpacking keeps the bytes, and the zero-fill of the last word stays (41_codec.md R111, R113). -/
theorem w2b_b2w (bs : List Byte) :
    w2b (b2w bs) = bs ++ List.replicate (4 * ((bs.length + 3) / 4) - bs.length) 0x00#8 := by
  induction bs using b2w.induct with
  | case1 => rfl
  | case2 | case3 | case4 => simp [b2w, w2b, unpackWord_packWord]
  | case5 b0 b1 b2 b3 rest ih =>
    have hfill : 4 * (((b0 :: b1 :: b2 :: b3 :: rest).length + 3) / 4) - (b0 :: b1 :: b2 :: b3 :: rest).length =
        4 * ((rest.length + 3) / 4) - rest.length := by
      simp only [List.length_cons]; omega
    rw [b2w, w2b_cons, unpackWord_packWord, ih, hfill]
    rfl

/-- Settles O26, by induction along the words and along `b2w`. -/
theorem codecRoundTrips : Obligations.CodecRoundTrips :=
  ⟨b2w_w2b, w2b_b2w⟩

/-! ### The length field -/

/-- The two settings of `LEN_MODE` store the same length field exactly where the high word of `full64` is zero. -/
theorem lenfield_full64_eq_trunc32_iff (n : Nat) :
    lenfield .full64 n = lenfield .trunc32 n ↔ 8 * n / 2 ^ 32 % 2 ^ 32 = 0 := by
  simp only [lenfield, w2b_injective.eq_iff, List.cons.injEq, and_true, BitVec.toNat_eq, BitVec.toNat_ofNat,
    Nat.zero_mod]

theorem ofNat_mod_two_pow (w x : Nat) : BitVec.ofNat w (x % 2 ^ w) = BitVec.ofNat w x :=
  BitVec.eq_of_toNat_eq (by simp only [BitVec.toNat_ofNat, Nat.mod_mod])

/-- Settles O28: the high word of `full64` is zero below `2^29` bytes, and not from there to below `2^61` bytes. -/
theorem lengthFieldOfBothModes : Obligations.LengthFieldOfBothModes := by
  unfold Obligations.LengthFieldOfBothModes
  intro n
  rw [ne_eq, lenfield_full64_eq_trunc32_iff, ofNat_mod_two_pow, ofNat_mod_two_pow]
  refine ⟨rfl, rfl, by omega, by omega, fun hn => ⟨_, _, rfl, ?_⟩⟩
  simp only [BitVec.toNat_ofNat]
  omega

/-! ### The padding at bit level -/

theorem bitsOf_append (bs cs : List Byte) : bitsOf (bs ++ cs) = bitsOf bs ++ bitsOf cs :=
  List.flatMap_append

theorem bitsOf_cons (b : Byte) (bs : List Byte) : bitsOf (b :: bs) = bitsOf [b] ++ bitsOf bs :=
  bitsOf_append [b] bs

theorem bitsOf_length (bs : List Byte) : (bitsOf bs).length = 8 * bs.length := by
  induction bs with
  | nil => rfl
  | cons b bs ih =>
    have hb : (bitsOf [b]).length = 8 := rfl
    rw [bitsOf_cons, List.length_append, ih, hb, List.length_cons]
    omega

theorem bitsOf_zeros (z : Nat) : bitsOf (List.replicate z 0x00#8) = List.replicate (8 * z) false := by
  induction z with
  | zero => rfl
  | succ z ih =>
    have hb : bitsOf [0x00#8] = List.replicate 8 false := rfl
    rw [List.replicate_succ, bitsOf_cons, ih, hb, List.replicate_append_replicate, Nat.mul_succ, Nat.add_comm]

/-- The byte `0x80` is the 1 bit and the first seven of the zero bits (41_codec.md R116). -/
theorem bitsOf_padbytes (mode : LenMode) (msg : List Byte) :
    bitsOf (padbytes mode msg) =
      bitsOf msg ++ [true] ++ List.replicate (7 + 8 * zeroBytes msg.length) false ++
        bitsOf (lenfield mode msg.length) := by
  have hb : bitsOf [0x80#8] = [true] ++ List.replicate 7 false := rfl
  simp only [padbytes, bitsOf_append, bitsOf_zeros, hb, ← List.replicate_append_replicate, List.append_assoc]

/-- Settles O27: the zero bits are fewer than 512, so no smaller number of them is congruent to theirs. -/
theorem paddingAtBitLevel : Obligations.PaddingAtBitLevel := by
  unfold Obligations.PaddingAtBitLevel
  intro mode msg
  have hz := zeroBytes_lt msg.length
  have hpad := zeroBytes_spec msg.length
  refine ⟨7 + 8 * zeroBytes msg.length, bitsOf_padbytes mode msg, by omega, by omega, ?_⟩
  rw [bitsOf_length, lenfield_length]

/-- Settles O29: padding adds 9 bytes and the zero bytes, of which there are fewer than 64. -/
theorem paddedLengthIsWholeBlocks : Obligations.PaddedLengthIsWholeBlocks := by
  unfold Obligations.PaddedLengthIsWholeBlocks
  intro mode msg
  have hz := zeroBytes_lt msg.length
  have hpad := zeroBytes_spec msg.length
  simp only [padwords, b2w_length, padbytes_length]
  omega

/-! ### PAD -/

theorem msgFits_iff (p : Params) (n : Nat) : msgFits p n = true ↔ ∀ cap, p.msgCap = some cap → n ≤ cap := by
  unfold msgFits
  cases p.msgCap <;> simp

theorem exec_pad_of_fits {s : State} {msg : List Byte} (hfit : s.acceptsMsg msg = true) :
    exec (.pad msg) s = .next ((s.setEng { s.eng with
      M := padwords s.params.lenMode msg, NB := blocksOf msg.length, BP := 0 }).send .ok []) := by
  obtain ⟨-, hx⟩ := (execPad_cases msg s).resolve_right fun h => Bool.false_ne_true (h.1.symm.trans hfit)
  rw [exec, hx, padwords_blocks]

theorem exec_pad_of_overlong {s : State} {msg : List Byte} (hlong : s.acceptsMsg msg = false) :
    exec (.pad msg) s = .next (s.reject .invalidArgument) := by
  obtain ⟨-, hx⟩ := (execPad_cases msg s).resolve_left fun h => Bool.false_ne_true (hlong.symm.trans h.1)
  rw [exec, hx]

/-- Settles O31: the only write is to the executing engine, which exists. -/
theorem padLoadsThePaddedMessage : Obligations.PadLoadsThePaddedMessage := by
  unfold Obligations.PadLoadsThePaddedMessage
  intro s msg hc hcap
  have hfit : s.acceptsMsg msg = true := (msgFits_iff s.params msg.length).mpr hcap
  refine ⟨_, exec_pad_of_fits hfit, ?_, rfl, ?_, rfl⟩
  · rw [send_eng, setEng_eng s _ hc, blocksOf]
  · exact (setEng_othersKept s _).trans (send_othersKept _ _ _)

/-- Settles O32: the length test fails. -/
theorem padRejectsAnOverlongMessage : Obligations.PadRejectsAnOverlongMessage := by
  unfold Obligations.PadRejectsAnOverlongMessage
  intro s msg cap hc hcap hlong
  have hfit : s.acceptsMsg msg = false := by
    rw [Bool.eq_false_iff, State.acceptsMsg, ne_eq, msgFits_iff]
    exact fun h => Nat.not_le_of_lt hlong (h cap hcap)
  exact ⟨_, exec_pad_of_overlong hfit, reject_rejectedWith s _ hc⟩

/-! ### UNPACK -/

theorem exec_unpack_of_ready {s : State} (hhv : s.eng.HV = true) :
    exec .unpack s = .next (s.send .ok (w2b s.eng.H.toList)) := by
  obtain ⟨-, hx⟩ := (execUnpack_cases s).resolve_right fun h => Bool.false_ne_true (h.1.symm.trans hhv)
  rw [exec, hx]

theorem exec_unpack_of_notReady {s : State} (hhv : s.eng.HV = false) :
    exec .unpack s = .next (s.reject .notReady) := by
  obtain ⟨-, hx⟩ := (execUnpack_cases s).resolve_left fun h => Bool.false_ne_true (hhv.symm.trans h.1)
  rw [exec, hx]

/-- Settles O33: the answer is `w2b` of the eight words of `H`. -/
theorem unpackReturnsTheHashState : Obligations.UnpackReturnsTheHashState := by
  unfold Obligations.UnpackReturnsTheHashState
  intro s hhv
  refine ⟨w2b s.eng.H.toList, ?_, fun _ _ _ => w2b_getElem?, exec_unpack_of_ready hhv⟩
  rw [w2b_length, Vector.length_toList]

/-- Settles O34: the test of `HV` fails. -/
theorem unpackBeforeHinitIsNotReady : Obligations.UnpackBeforeHinitIsNotReady :=
  fun s hc hhv => ⟨_, exec_unpack_of_notReady hhv, reject_rejectedWith s _ hc⟩

end Sys2Proof.Machine
end

section
/-! PROOFS. The compression engine: the word operations as maps of bits, and the commands HINIT and COMPRESS
(42_compression.md R130 to R149). -/

namespace Sys2Proof.Machine

/-! ### Rotates and shifts -/

theorem rotr_toNat (x : Word) (n : Nat) :
    (rotr x n).toNat = (x.toNat / 2 ^ n + x.toNat % 2 ^ n * 2 ^ (32 - n)) % 2 ^ 32 := rfl

theorem toNat_div_two_pow_lt (x : Word) {n : Nat} (hn : n ≤ 32) : x.toNat / 2 ^ n < 2 ^ (32 - n) := by
  rw [Nat.div_lt_iff_lt_mul (Nat.two_pow_pos n), ← Nat.pow_add, Nat.sub_add_cancel hn]
  exact x.isLt

/-- The two terms of the rotate's formula occupy disjoint bits: the quotient those below `32 - n`, the remainder the
others. -/
theorem rotr_getLsbD (x : Word) {n i : Nat} (hn : n ≤ 32) (hi : i < 32) :
    (rotr x n).getLsbD i = x.getLsbD ((i + n) % 32) := by
  have hbits := Nat.testBit_two_pow_mul_add (x.toNat % 2 ^ n) (toNat_div_two_pow_lt x hn) i
  rw [rotr, BitVec.getLsbD_ofNat, decide_eq_true hi, Bool.true_and, Nat.add_comm, Nat.mul_comm, hbits]
  split
  case isTrue hlow =>
    rw [Nat.testBit_div_two_pow, Nat.mod_eq_of_lt (by omega), BitVec.getLsbD]
  case isFalse hhigh =>
    have hpos : (i + n) % 32 = i - (32 - n) := by omega
    have hlt : i - (32 - n) < n := by omega
    rw [Nat.testBit_mod_two_pow, decide_eq_true hlt, Bool.true_and, hpos, BitVec.getLsbD]

theorem shr_toNat (x : Word) (n : Nat) : (shr x n).toNat = x.toNat / 2 ^ n :=
  Nat.mod_eq_of_lt (Nat.lt_of_le_of_lt (Nat.div_le_self _ _) x.isLt)

/-- Above bit 31 the word has no bits, so the zeros that enter at the top need no case. -/
theorem shr_getLsbD (x : Word) (n i : Nat) : (shr x n).getLsbD i = x.getLsbD (i + n) := by
  rw [BitVec.getLsbD, shr_toNat, Nat.testBit_div_two_pow, BitVec.getLsbD]

/-- Settles O35: the formula is the definition, and its two terms are the two ends of the word. -/
theorem rotrMovesEveryBit : Obligations.RotrMovesEveryBit :=
  fun x n _ hn => ⟨rotr_toNat x n, fun _ hi => rotr_getLsbD x (Nat.le_succ_of_le hn) hi⟩

/-- Settles O36: a bit of a quotient by `2 ^ n` is the one `n` places up. -/
theorem shrIsALogicalShift : Obligations.ShrIsALogicalShift := by
  unfold Obligations.ShrIsALogicalShift
  refine fun x n _ _ => ⟨shr_toNat x n, fun i _ => ?_⟩
  rw [shr_getLsbD]
  split
  case isTrue => rfl
  case isFalse htop => exact BitVec.getLsbD_of_ge x (i + n) (by omega)

/-! ### Mixes, choice and majority -/

/-- Settles O37: exclusive or acts on each bit alone. -/
theorem mixesBitByBit : Obligations.MixesBitByBit := by
  unfold Obligations.MixesBitByBit
  intro x i hi
  simp only [ssig0, ssig1, bsig0, bsig1, BitVec.getLsbD_xor, shr_getLsbD, rotr_getLsbD x _ hi, Nat.reduceLeDiff,
    and_self]

theorem ch_getLsbD (x y z : Word) {i : Nat} (hi : i < 32) :
    (ch x y z).getLsbD i = if x.getLsbD i then y.getLsbD i else z.getLsbD i := by
  simp only [ch, BitVec.getLsbD_xor, BitVec.getLsbD_and, BitVec.getLsbD_not, hi]
  cases x.getLsbD i <;> simp

theorem maj_getLsbD (x y z : Word) (i : Nat) :
    (maj x y z).getLsbD i = true ↔ 2 ≤ (x.getLsbD i).toNat + (y.getLsbD i).toNat + (z.getLsbD i).toNat := by
  simp only [maj, BitVec.getLsbD_xor, BitVec.getLsbD_and]
  generalize x.getLsbD i = a, y.getLsbD i = b, z.getLsbD i = c
  revert a b c
  decide

/-- Settles O38, by the values the three bits can have. -/
theorem choiceAndMajorityBitByBit : Obligations.ChoiceAndMajorityBitByBit :=
  fun x y z i hi => ⟨ch_getLsbD x y z hi, maj_getLsbD x y z i⟩

/-! ### HINIT -/

/-- Settles O39: the only write is to the executing engine, which exists. -/
theorem hinitSetsTheInitialValue : Obligations.HinitSetsTheInitialValue := by
  unfold Obligations.HinitSetsTheInitialValue
  intro s hc
  refine ⟨_, rfl, ?_, rfl, ?_, rfl⟩
  · rw [respondOk_eq, send_eng, setEng_eng s _ hc, initialValue]
  · exact (setEng_othersKept s _).trans (send_othersKept _ _ _)

/-! ### A loop that fills the schedule slot by slot -/

/-- Writing a slot leaves the slots below it. -/
theorem wr_agreeBelow {j i : Nat} (h : j ≤ i) (w : Vector Word 64) (x : Word) :
    AgreeBelow j (wr w i x) w :=
  fun _ hlt => rd_wr_other _ _ _ _ _ (Nat.lt_of_lt_of_le hlt h).ne'

/-- Slots `k .. k+n-1` in increasing order, slot `t` from the words in the schedule at its turn. -/
def fillSlots (g : Vector Word 64 → Nat → Word) (k n : Nat) (w : Vector Word 64) : Vector Word 64 :=
  (List.range' k n).foldl (fun w t => wr w t (g w t)) w

theorem fillSlots_succ (g : Vector Word 64 → Nat → Word) (k n : Nat) (w : Vector Word 64) :
    fillSlots g k (n + 1) w = wr (fillSlots g k n w) (k + n) (g (fillSlots g k n w) (k + n)) := by
  rw [fillSlots, List.range'_1_concat, List.foldl_concat, fillSlots]

theorem fillSlots_agree_below (g : Vector Word 64 → Nat → Word) (k n : Nat) (w : Vector Word 64) :
    AgreeBelow k (fillSlots g k n w) w := by
  induction n with
  | zero => exact fun _ _ => rfl
  | succ n ih =>
    intro i hi
    rw [fillSlots_succ, wr_agreeBelow (Nat.le_add_right k n) _ _ i hi, ih i hi]

/-- If slot `t` is computed from lower slots, the recurrence holds in the filled schedule: what it read was final. -/
theorem rd_fillSlots {g : Vector Word 64 → Nat → Word} {k : Nat}
    (hg : ∀ {t w w'}, k ≤ t → AgreeBelow t w w' → g w t = g w' t) (w : Vector Word 64) {n j : Nat} (hk : k ≤ j)
    (hj : j < k + n) (h64 : j < 64) : rd .W (fillSlots g k n w) j = g (fillSlots g k n w) j := by
  induction n with
  | zero => omega
  | succ n ih =>
    have hle : j ≤ k + n := Nat.le_of_lt_succ hj
    have hlater (x : Word) : AgreeBelow j (wr (fillSlots g k n w) (k + n) x) (fillSlots g k n w) :=
      wr_agreeBelow hle _ x
    rw [fillSlots_succ, hg hk (hlater _)]
    rcases Nat.lt_or_eq_of_le hle with hlt | rfl
    · rw [rd_wr_other _ _ _ _ _ hlt.ne', ih hlt]
    · rw [rd_wr_same _ _ _ _ h64]

/-! ### The schedule of a block -/

/-- The right-hand side of R142. -/
def expandTerm (w : Vector Word 64) (t : Nat) : Word :=
  rd .W w (t - 16) + ssig0 (rd .W w (t - 15)) + rd .W w (t - 7) + ssig1 (rd .W w (t - 2))

theorem expandTerm_congr {t : Nat} {w w' : Vector Word 64} (ht : 16 ≤ t) (h : AgreeBelow t w w') :
    expandTerm w t = expandTerm w' t := by
  rw [expandTerm, h (t - 16) (by omega), h (t - 15) (by omega), h (t - 7) (by omega), h (t - 2) (by omega), expandTerm]

theorem expand_eq_fillSlots (w : Vector Word 64) : expand w = fillSlots expandTerm 16 48 w := rfl

theorem loadBlock_eq_fillSlots (m : List Word) (bp : Nat) (w : Vector Word 64) :
    loadBlock m bp w = fillSlots (fun _ t => rdM m (16 * bp + t)) 0 16 w := by
  rw [loadBlock, List.range_eq_range', fillSlots]

theorem rd_loadBlock (m : List Word) (bp : Nat) (w : Vector Word 64) {j : Nat} (hj : j < 16) :
    rd .W (loadBlock m bp w) j = rdM m (16 * bp + j) := by
  rw [loadBlock_eq_fillSlots]
  exact rd_fillSlots (fun _ _ => rfl) w (Nat.zero_le j) (by omega) (by omega)

/-- Slots 0 to 15 of a block's schedule are the block (42_compression.md R141). -/
theorem rd_expand_loadBlock (m : List Word) (bp : Nat) (w : Vector Word 64) {j : Nat} (hj : j < 16) :
    rd .W (expand (loadBlock m bp w)) j = rdM m (16 * bp + j) := by
  rw [expand_eq_fillSlots, fillSlots_agree_below _ _ _ _ j hj, rd_loadBlock m bp w hj]

/-- Every later slot satisfies the recurrence (42_compression.md R142). -/
theorem rd_expand (w : Vector Word 64) {j : Nat} (hj : 16 ≤ j) (h64 : j < 64) :
    rd .W (expand w) j = expandTerm (expand w) j := by
  rw [expand_eq_fillSlots]
  exact rd_fillSlots expandTerm_congr w hj (by omega) h64

/-! ### The result of a block -/

theorem rdM_blockAt (m : List Word) (bp : Nat) {t : Nat} (ht : t < 16) :
    rdM (blockAt m bp) t = rdM m (16 * bp + t) := by
  simp [rdM, blockAt, List.getD_eq_getElem?_getD, ht]

/-- Block `bp` of a message is block 0 of that block alone. -/
theorem loadBlock_blockAt (m : List Word) (bp : Nat) (w : Vector Word 64) :
    loadBlock (blockAt m bp) 0 w = loadBlock m bp w := by
  unfold loadBlock
  refine List.foldl_ext _ _ _ fun w t ht => ?_
  rw [Nat.mul_zero, Nat.zero_add, rdM_blockAt m bp (List.mem_range.mp ht)]

/-- The hash state after a block is `compress` of the one before it (42_compression.md R146). -/
theorem compressBlock_H_eq_compress (k : Vector Word 64) (e : Engine) :
    (compressBlock k e).H = compress e.H (blockAt e.M e.BP) k := by
  rw [compressBlock_H, compress, loadBlock_blockAt, expand_loadBlock_eq _ _ e.W (novalues .W 64)]

/-- The last round is one more `roundStep` (42_compression.md R144). -/
theorem rounds_succ (k w : Vector Word 64) (v : Work) {n : Nat} (hn : n < 64) :
    rounds k w (n + 1) v = roundStep k[n] w[n] (rounds k w n v) := by
  rw [rounds, List.range_succ, List.foldl_concat, rd_eq _ _ _ hn, rd_eq _ _ _ hn, rounds]

/-! ### COMPRESS -/

theorem exec_compress_of_ready {s : State} (hkv : s.tbl.KV = true) (hhv : s.eng.HV = true)
    (hblk : s.eng.BP < s.eng.NB) :
    exec .compress s = .next ((s.setEng (compressBlock s.tbl.K s.eng)).send .ok []) :=
  execCompress_of_ready hkv hhv hblk

theorem exec_compress_of_notReady {s : State} (hnot : s.tbl.KV = false ∨ s.eng.HV = false) :
    exec .compress s = .next (s.reject .notReady) := by
  rcases execCompress_cases s with ⟨-, hx⟩ | ⟨hkv, hhv, -, -⟩ | ⟨hkv, hhv, -, -⟩
  · exact hx
  · simp [hkv, hhv] at hnot
  · simp [hkv, hhv] at hnot

theorem exec_compress_of_done {s : State} (hkv : s.tbl.KV = true) (hhv : s.eng.HV = true)
    (hdone : s.eng.NB ≤ s.eng.BP) : exec .compress s = .next (s.reject .sequence) := by
  rcases execCompress_cases s with ⟨hnot, -⟩ | ⟨-, -, -, hx⟩ | ⟨-, -, hblk, -⟩
  · simp [hkv, hhv] at hnot
  · exact hx
  · exact absurd hblk (Nat.not_lt_of_le hdone)

/-- Settles O40: the only write is `compressBlock`, to the executing engine, which exists. -/
theorem compressProcessesOneBlock : Obligations.CompressProcessesOneBlock := by
  unfold Obligations.CompressProcessesOneBlock
  intro s hc hkv hhv hblk
  refine ⟨_, exec_compress_of_ready hkv hhv hblk, ?_, rfl, ?_, rfl⟩
  · rw [send_eng, setEng_eng s _ hc, ← compressBlock_H_eq_compress]
    rfl
  · exact (setEng_othersKept s _).trans (send_othersKept _ _ _)

/-- Settles O41: the schedule is filled slot by slot, each from final lower slots; a message in its form has the block's
sixteen words. -/
theorem compressBuildsTheSchedule : Obligations.CompressBuildsTheSchedule := by
  unfold Obligations.CompressBuildsTheSchedule
  intro s hc hkv hhv hblk hwf
  have hlen : s.eng.M.length = 16 * s.eng.NB := beq_iff_eq.mp hwf
  refine ⟨_, exec_compress_of_ready hkv hhv hblk, fun j hj => ?_, fun j hj h64 => ?_⟩ <;>
    simp only [send_eng, setEng_eng s _ hc, ← rd_eq .W]
  · have hM : 16 * s.eng.BP + j < s.eng.M.length := by omega
    rw [List.getElem?_eq_getElem hM, ← rdM_eq _ _ hM]
    exact congrArg some (rd_expand_loadBlock s.eng.M s.eng.BP s.eng.W hj).symm
  · exact rd_expand (loadBlock s.eng.M s.eng.BP s.eng.W) hj h64

/-- Settles O42: the sequence of working variables is `rounds` at each number of rounds. -/
theorem compressRunsSixtyFourRounds : Obligations.CompressRunsSixtyFourRounds := by
  unfold Obligations.CompressRunsSixtyFourRounds
  intro s hc hkv hhv hblk
  have heng := setEng_eng s (compressBlock s.tbl.K s.eng) hc
  refine ⟨_, fun n => rounds s.tbl.K (compressBlock s.tbl.K s.eng).W n (copyHash s.eng.H),
    exec_compress_of_ready hkv hhv hblk, rfl, fun i hi => ⟨_, _, rfl, rfl, ?_⟩, ?_, ?_⟩
  · simp only [send_eng, heng]
    exact rounds_succ s.tbl.K _ _ hi
  · exact congrArg Engine.wv heng
  · exact congrArg Engine.H heng

/-- Settles O43: the failing test decides the code, and a rejection keeps `BP`. -/
theorem compressRejectsWhatItCannotDo : Obligations.CompressRejectsWhatItCannotDo :=
  fun s hc =>
    ⟨fun hnot => ⟨_, exec_compress_of_notReady hnot, reject_rejectedWith s .notReady hc⟩,
     fun hkv hhv hdone => ⟨_, exec_compress_of_done hkv hhv hdone, reject_rejectedWith s .sequence hc⟩⟩

end Sys2Proof.Machine
end

section
/-! PROOFS. The system commands STATUS and RESET (43_system_commands.md R160, R161). -/

namespace Sys2Proof.Machine

/-! ### STATUS -/

/-- The low byte of the status word, which holds every flag (10_state.md R40). -/
def statusByte (b : Table) (e : Engine) : Byte :=
  (((e.ECODE.concat e.ERR).concat e.blk).concat e.HV).concat b.KV

theorem statusWord_eq_statusByte (b : Table) (e : Engine) : statusWord b e = (statusByte b e).setWidth 32 := rfl

/-- The flags by the weight of their bits (10_state.md R40), with `BLK` as R36 has it. -/
theorem statusByte_toNat (b : Table) (e : Engine) :
    (statusByte b e).toNat = b.KV.toNat + 2 * e.HV.toNat + 4 * (if e.BP < e.NB then 1 else 0) +
      8 * e.ERR.toNat + 16 * e.ECODE.toNat := by
  have hblk : e.blk.toNat = if e.BP < e.NB then 1 else 0 := Bool.cond_decide _ 1 0
  simp only [statusByte, BitVec.toNat_concat, hblk]
  omega

/-- A word whose upper three bytes are 0 (10_state.md R41). -/
theorem unpackWord_setWidth (x : Byte) : unpackWord (x.setWidth 32) = [0x00#8, 0x00#8, 0x00#8, x] := by
  have hword : packWord 0 0 0 x = x.setWidth 32 := by
    apply BitVec.eq_of_toNat_eq
    rw [packWord_toNat, BitVec.toNat_setWidth_of_le (by decide)]
    simp
  rw [← hword, unpackWord_packWord]
  rfl

/-- Settles O45: the answer is the status word, whose low byte holds the flags. -/
theorem statusReturnsTheStatusWord : Obligations.StatusReturnsTheStatusWord := by
  unfold Obligations.StatusReturnsTheStatusWord
  intro s
  have hbytes : w2b [s.status] = [0x00#8, 0x00#8, 0x00#8, statusByte s.tbl s.eng] := by
    rw [State.status, statusWord_eq_statusByte, ← unpackWord_setWidth]
    rfl
  refine ⟨statusByte s.tbl s.eng, statusByte_toNat s.tbl s.eng, ?_⟩
  rw [exec, execStatus, hbytes]
  rfl

/-! ### RESET -/

/-- Settles O46: the effect of RESET is the reset engine with its table, which is as before if it is shared. -/
theorem resetCommandResetsItsEngine : Obligations.ResetCommandResetsItsEngine := by
  unfold Obligations.ResetCommandResetsItsEngine
  intro s hs
  have hx := exec_eq_perform .reset s
  refine ⟨_, hx, perform_eng hs _, fun hsh => ?_, fun hsh => ?_, (Executes.of_exec hx).othersKept, rfl⟩
  · have htable : (effect .reset s.params s.eng s.tbl).table = s.tbl := by simp [effect, hsh]
    rw [perform_tables, htable, tables_set_tbl]
  · have htable : (effect .reset s.params s.eng s.tbl).table = Table.reset s.params := by
      simp only [effect, Bool.and_eq_true, decide_eq_true_eq, if_neg hsh]
    rw [perform_tbl hs, htable]
    exact ⟨tableReset_KV s.params, tableReset_K⟩

end Sys2Proof.Machine
end

section
/-! PROOFS. A sequence of commands sent to one engine, whose table they leave alone: what it leaves in the engine and how it
is answered, as a relation of engines (`Answered`), and the run of the machine that follows from it. -/

namespace Sys2Proof.Machine

/-- `Answered p b is v v' replies`: an engine that holds `v`, with table `b`, executes the commands `is` one after another,
none of which changes the table, ends holding `v'` and sends the frames `replies`. -/
inductive Answered (p : Params) (b : Table) : List Instr → Engine → Engine → List Frame → Prop where
  | nil (v : Engine) : Answered p b [] v v []
  | cons {i : Instr} {is : List Instr} {u v w : Engine} {c : Code} {payload : List Byte} {replies : List Frame}
    (first : effect i p u b = ⟨v, b, c, payload⟩) (others : Answered p b is v w replies) :
    Answered p b (i :: is) u w ((c.byte :: payload) :: replies)

theorem Answered.append {p : Params} {b : Table} {is js : List Instr} {u v w : Engine} {replies replies' : List Frame}
    (h : Answered p b is u v replies) (h' : Answered p b js v w replies') :
    Answered p b (is ++ js) u w (replies ++ replies') := by
  induction h with
  | nil => exact h'
  | cons first _ ih => exact .cons first (ih h')

/-- The inputs that carry a sequence of commands to engine `e`. -/
def commandInputs (e : Nat) (is : List Instr) : List Input :=
  is.map fun i => .frame e (encode i)

/-- The state once the executing engine holds `v` and has sent `replies`, with `rest` still to come. -/
def State.served (s : State) (v : Engine) (replies : List Frame) (rest : List Input) : State :=
  { s.setEng v with inbox := rest, outbox := s.outbox ++ replies.map (Response.mk s.cur) }

@[simp] theorem served_engines (s : State) (v : Engine) (replies : List Frame) (rest : List Input) :
    (s.served v replies rest).engines = s.engines.set s.cur v := rfl

@[simp] theorem served_outbox (s : State) (v : Engine) (replies : List Frame) (rest : List Input) :
    (s.served v replies rest).outbox = s.outbox ++ replies.map (Response.mk s.cur) := rfl

@[simp] theorem served_cur (s : State) (v : Engine) (replies : List Frame) (rest : List Input) :
    (s.served v replies rest).cur = s.cur := rfl

theorem served_eng {s : State} (hc : s.cur < s.engines.length) (v : Engine) (replies : List Frame) (rest : List Input) :
    (s.served v replies rest).eng = v :=
  setEng_eng s v hc

theorem served_served (s : State) (v v' : Engine) (replies replies' : List Frame) (rest rest' : List Input) :
    (s.served v replies rest).served v' replies' rest' = s.served v' (replies ++ replies') rest' := by
  simp [State.served, State.setEng]

theorem served_sentBy (s : State) (e : Nat) (v : Engine) (replies : List Frame) (rest : List Input) :
    ((s.onEngine e rest).served v replies rest).sentBy e = s.sentBy e ++ replies := by
  simp [State.sentBy, List.filter_map, Function.comp_def]

/-- One frame on the executing engine's transport, whose command leaves the table alone. -/
theorem step_command {s : State} (hc : s.cur < s.engines.length) {i : Instr} {v : Engine} {c : Code}
    {payload : List Byte} (heff : effect i s.params s.eng s.tbl = ⟨v, s.tbl, c, payload⟩) (rest : List Input) :
    step { s with inbox := .frame s.cur (encode i) :: rest } = .next (s.served v [c.byte :: payload] rest) := by
  have hexec : exec i { s with inbox := rest } = .next (({ s with inbox := rest }.setEng v).send c payload) := by
    rw [exec_eq_perform, ← perform_of_table_kept]
    exact congrArg (fun x => Host.Outcome.next (State.perform { s with inbox := rest } x)) heff
  have hstep := step_of_frame (s := { s with inbox := .frame s.cur (encode i) :: rest }) rfl hc
  exact hstep.trans ((runFrame_of_command (decode_encode i) _).trans hexec)

/-- The machine runs a sequence of commands as `Answered` says. -/
theorem Answered.runsTo {s : State} {is : List Instr} {v : Engine} {replies : List Frame}
    (h : Answered s.params s.tbl is s.eng v replies) (hc : s.cur < s.engines.length) (rest : List Input) :
    RunsTo is.length { s with inbox := commandInputs s.cur is ++ rest } (s.served v replies rest) := by
  generalize hp : s.params = p at h
  generalize hb : s.tbl = b at h
  generalize hu : s.eng = u at h
  induction h generalizing s with
  | nil =>
    subst hp hb hu
    simp [RunsTo, State.served, setEng_self, commandInputs]
  | @cons i is u v w c payload replies first _ ih =>
    subst hp hb hu
    have hnext := ih (s := s.served v [c.byte :: payload] (commandInputs s.cur is ++ rest)) (by simpa using hc) rfl rfl
      (served_eng hc ..)
    rw [served_served] at hnext
    exact ⟨_, step_command hc first _, hnext⟩

/-- The same of a machine in which another engine may have executed before. -/
theorem Answered.runsTo_onEngine {s : State} {e : Nat} {is : List Instr} {v : Engine} {replies : List Frame}
    {rest : List Input} (he : e < s.engines.length) (hne : is ≠ [])
    (h : Answered s.params (s.onEngine e rest).tbl is (s.onEngine e rest).eng v replies) :
    RunsTo is.length { s with inbox := commandInputs e is ++ rest } ((s.onEngine e rest).served v replies rest) := by
  cases is with
  | nil => exact absurd rfl hne
  | cons i is => exact h.runsTo (s := s.onEngine e rest) he rest

end Sys2Proof.Machine
end

section
/-! PROOFS. The digest sequences of the host (45_host_sequences.md R170 to R174): COMPRESS until no block is pending, DIGEST
and DIGEST2. -/

namespace Sys2Proof.Machine

/-! ### Several blocks -/

/-- What COMPRESS leaves in an engine, executed on the next `n` blocks. -/
def compressBlocks (k : Vector Word 64) : Nat → Engine → Engine
  | 0, v => v
  | n + 1, v => compressBlocks k n (compressBlock k v)

/-- An aspect of the engine that no block changes. -/
theorem compressBlocks_keeps {α : Type} (f : Engine → α) {k : Vector Word 64} (hf : ∀ v, f (compressBlock k v) = f v)
    (n : Nat) (v : Engine) : f (compressBlocks k n v) = f v := by
  induction n generalizing v with
  | zero => rfl
  | succ n ih => exact (ih _).trans (hf v)

theorem compressBlocks_BP (k : Vector Word 64) (n : Nat) (v : Engine) : (compressBlocks k n v).BP = v.BP + n := by
  induction n generalizing v with
  | zero => rfl
  | succ n ih => rw [compressBlocks, ih, compressBlock_BP, Nat.add_assoc, Nat.add_comm 1]

/-- The hash state is folded over the blocks (42_compression.md R146, R148). -/
theorem compressBlocks_H (k : Vector Word 64) (n : Nat) (v : Engine) :
    (compressBlocks k n v).H =
      (List.range' v.BP n).foldl (fun h j => compress h (blockAt v.M j) k) v.H := by
  induction n generalizing v with
  | zero => rfl
  | succ n ih =>
    rw [compressBlocks, ih, compressBlock_H_eq_compress, compressBlock_M, compressBlock_BP, List.range'_succ,
      List.foldl_cons]

theorem effect_compress_of_ready {b : Table} {v : Engine} (hkv : b.KV = true) (hhv : v.HV = true) (hblk : v.BP < v.NB)
    (p : Params) : effect .compress p v b = ⟨compressBlock b.K v, b, .ok, []⟩ := by
  simp [effect, hkv, hhv, hblk]

/-- COMPRESS is answered OK for every block that is pending (42_compression.md R140). -/
theorem answered_compress {p : Params} {b : Table} (hkv : b.KV = true) {n : Nat} {v : Engine} (hhv : v.HV = true)
    (hblk : v.BP + n ≤ v.NB) :
    Answered p b (List.replicate n .compress) v (compressBlocks b.K n v) (List.replicate n [0x00#8]) := by
  induction n generalizing v with
  | zero => exact .nil v
  | succ n ih =>
    have hlt : v.BP < v.NB := by omega
    have hrest : (compressBlock b.K v).BP + n ≤ (compressBlock b.K v).NB := by
      rw [compressBlock_BP, compressBlock_NB]
      omega
    exact .cons (effect_compress_of_ready hkv hhv hlt p) (ih hhv hrest)

/-! ### DIGEST -/

/-- The commands of DIGEST (R171). -/
def digestCommands (msg : List Byte) : List Instr :=
  .hinit :: .pad msg :: (List.replicate (blocksOf msg.length) .compress ++ [.unpack])

theorem digestCommands_ne_nil (msg : List Byte) : digestCommands msg ≠ [] := List.cons_ne_nil _ _

theorem digestCommands_length (msg : List Byte) : (digestCommands msg).length = blocksOf msg.length + 3 := by
  simp [digestCommands]

theorem digestFrames_inputs (e : Nat) (msg : List Byte) :
    (digestFrames msg).map (.frame e) = commandInputs e (digestCommands msg) := by
  simp [digestFrames, runFrames, digestCommands, commandInputs]

/-- What HINIT and PAD of a message leave in an engine. -/
def Engine.loaded (v : Engine) (mode : LenMode) (msg : List Byte) : Engine :=
  { v with H := initialValue, HV := true, M := padwords mode msg, NB := blocksOf msg.length, BP := 0 }

/-- What DIGEST of a message leaves in an engine. -/
def Engine.digested (v : Engine) (mode : LenMode) (k : Vector Word 64) (msg : List Byte) : Engine :=
  compressBlocks k (blocksOf msg.length) (v.loaded mode msg)

section
variable (v : Engine) (mode : LenMode) (k : Vector Word 64) (msg : List Byte)

theorem digested_HV : (v.digested mode k msg).HV = true :=
  compressBlocks_keeps Engine.HV (compressBlock_HV k) _ _

theorem digested_NB : (v.digested mode k msg).NB = blocksOf msg.length :=
  compressBlocks_keeps Engine.NB (compressBlock_NB k) _ _

theorem digested_ERR : (v.digested mode k msg).ERR = v.ERR :=
  compressBlocks_keeps Engine.ERR (compressBlock_ERR k) _ _

theorem digested_BP : (v.digested mode k msg).BP = blocksOf msg.length :=
  (compressBlocks_BP k _ _).trans (Nat.zero_add _)

theorem digested_H : (v.digested mode k msg).H = hashOf mode k msg := by
  rw [Engine.digested, compressBlocks_H, hashOf, List.range_eq_range']
  rfl

end

/-- The responses of DIGEST: OK to all commands but the last, which answers the digest. -/
def digestReplies (mode : LenMode) (k : Vector Word 64) (msg : List Byte) : List Frame :=
  List.replicate (blocksOf msg.length + 2) [0x00#8] ++ [0x00#8 :: digestOf mode k msg]

theorem digestReplies_getLast? (replies : List Frame) (mode : LenMode) (k : Vector Word 64) (msg : List Byte) :
    (replies ++ digestReplies mode k msg).getLast? = some (0x00#8 :: digestOf mode k msg) := by
  rw [digestReplies, ← List.append_assoc, List.getLast?_concat]

/-- DIGEST on an engine with a valid table, whatever else it holds (R171). -/
theorem answered_digest {p : Params} {b : Table} (hkv : b.KV = true) {msg : List Byte}
    (hfit : msgFits p msg.length = true) (v : Engine) :
    Answered p b (digestCommands msg) v (v.digested p.lenMode b.K msg) (digestReplies p.lenMode b.K msg) := by
  have hinit : effect .hinit p v b = ⟨{ v with H := initialValue, HV := true }, b, .ok, []⟩ := rfl
  have hpad : effect (.pad msg) p { v with H := initialValue, HV := true } b =
      ⟨v.loaded p.lenMode msg, b, .ok, []⟩ := by
    simp [effect, hfit, padwords_blocks, Engine.loaded]
  have hunpack : effect .unpack p (v.digested p.lenMode b.K msg) b =
      ⟨v.digested p.lenMode b.K msg, b, .ok, digestOf p.lenMode b.K msg⟩ := by
    simp [effect, digested_HV, digested_H, digestOf]
  have hrun := answered_compress (p := p) (v := v.loaded p.lenMode msg) hkv rfl (Nat.zero_add _).le
  exact .cons hinit (.cons hpad (hrun.append (.cons hunpack (.nil _))))

/-- Settles O56: the sequence loads the engine and compresses every block of the message. -/
theorem digestSequenceReturnsTheDigest : Obligations.DigestSequenceReturnsTheDigest := by
  unfold Obligations.DigestSequenceReturnsTheDigest
  intro s e msg rest he hkv hcap
  have hrun := (answered_digest hkv ((msgFits_iff s.params _).mpr hcap) (s.onEngine e rest).eng).runsTo_onEngine he
    (digestCommands_ne_nil msg)
  rw [digestCommands_length, ← digestFrames_inputs] at hrun
  refine ⟨_, hrun, ?_, ?_⟩
  · rw [served_sentBy, digestReplies, List.append_assoc]
  · rw [served_eng he]
    exact ⟨digested_HV .., (digested_BP ..).trans (digested_NB ..).symm, digested_NB .., digested_H .., digested_ERR ..,
      rfl⟩

/-- Settles O57: two DIGEST sequences one after the other. -/
theorem doubleDigestIsTheDigestOfTheDigest : Obligations.DoubleDigestIsTheDigestOfTheDigest := by
  unfold Obligations.DoubleDigestIsTheDigestOfTheDigest
  intro s e msg d1 he hkv hcap hd1
  have hd1len : d1.length = 32 := by rw [hd1, digestOf_length]
  have hfirst := answered_digest hkv ((msgFits_iff s.params msg.length).mpr fun cap h => (hcap cap h).1)
    (s.onEngine e []).eng
  have hsecond := answered_digest hkv ((msgFits_iff s.params d1.length).mpr fun cap h => hd1len ▸ (hcap cap h).2)
    ((s.onEngine e []).eng.digested s.params.lenMode (s.onEngine e []).tbl.K msg)
  have hrun := (hfirst.append hsecond).runsTo_onEngine he
    (List.append_ne_nil_of_left_ne_nil (digestCommands_ne_nil msg) _)
  have hsteps : (digestCommands msg ++ digestCommands d1).length = blocksOf msg.length + 7 := by
    simp [digestCommands_length, hd1len, blocksOf]
  have hinputs : commandInputs e (digestCommands msg ++ digestCommands d1) ++ [] =
      (digest2Frames msg d1).map (.frame e) := by
    simp [digest2Frames, digestFrames_inputs, commandInputs]
  rw [hsteps, hinputs] at hrun
  refine ⟨_, hrun, ?_⟩
  rw [served_sentBy, ← List.append_assoc, digestReplies_getLast?]

end Sys2Proof.Machine
end

section
/-! PROOFS. RUN by a polling host (45_host_sequences.md R170). -/

namespace Sys2Proof.Machine

/-! ### What the host reads in the last response -/

theorem served_lastStatus (s : State) (v : Engine) (replies : List Frame) (c : Code) (payload : List Byte)
    (rest : List Input) : lastStatus (s.served v (replies ++ [c.byte :: payload]) rest) = some c.byte := by
  simp [lastStatus]

/-- The status word as four bytes (43_system_commands.md R160). -/
theorem w2b_statusWord (b : Table) (v : Engine) : w2b [statusWord b v] = [0x00#8, 0x00#8, 0x00#8, statusByte b v] := by
  rw [statusWord_eq_statusByte, ← unpackWord_setWidth]
  rfl

theorem statusByte_getElem_two (b : Table) (v : Engine) : (statusByte b v)[2] = v.blk := by
  simp [statusByte]

/-- The host reads `BLK` in the answer to STATUS (10_state.md R40). -/
theorem served_lastBlk (s : State) (v w : Engine) (b : Table) (rest : List Input) :
    lastBlk (s.served w [0x00#8 :: w2b [statusWord b v]] rest) = v.blk := by
  simp [lastBlk, w2b_statusWord, statusByte_getElem_two]

/-! ### The rounds of RUN -/

/-- What the host sends to the executing engine is executed at once, before what is waiting. -/
theorem hostSend_command {s : State} (hc : s.cur < s.engines.length) {i : Instr} {v : Engine} {c : Code}
    {payload : List Byte} (heff : effect i s.params s.eng s.tbl = ⟨v, s.tbl, c, payload⟩) :
    hostSend s.cur (encode i) s = .next (s.served v [c.byte :: payload] s.inbox) :=
  step_command hc heff s.inbox

/-- The state after STATUS. -/
def State.polled (s : State) : State :=
  s.served s.eng [0x00#8 :: w2b [s.status]] s.inbox

/-- The state after STATUS and the COMPRESS of a block that is pending. -/
def State.advanced (s : State) : State :=
  s.served (compressBlock s.tbl.K s.eng) [0x00#8 :: w2b [s.status], [0x00#8]] s.inbox

theorem polled_responses (s : State) : s.polled.outbox.length = s.outbox.length + 1 := by
  simp [State.polled]

theorem advanced_responses (s : State) : s.advanced.outbox.length = s.outbox.length + 2 := by
  simp [State.advanced]

section
variable {s : State} (hc : s.cur < s.engines.length)
include hc

theorem hostSend_status : hostSend s.cur (encode .status) s = .next s.polled :=
  hostSend_command hc (i := .status) (c := .ok) rfl

theorem hostSend_compress (hkv : s.tbl.KV = true) (hhv : s.eng.HV = true) (hblk : s.eng.BP < s.eng.NB) :
    hostSend s.cur (encode .compress) s.polled = .next s.advanced := by
  have heng : s.polled.eng = s.eng := served_eng hc ..
  have hsend := hostSend_command (s := s.polled) (i := .compress) (v := compressBlock s.tbl.K s.eng) (c := .ok)
    (payload := []) (by simpa [State.polled] using hc)
    (heng.symm ▸ effect_compress_of_ready hkv hhv hblk s.params)
  rwa [State.polled, served_served] at hsend

/-- A round with no block pending ends the loop after the answer to STATUS. -/
theorem hostRun_of_done (hdone : s.eng.NB ≤ s.eng.BP) (n : Nat) : hostRun s.cur (n + 1) s = .next s.polled := by
  have hblk : lastBlk s.polled = false :=
    (served_lastBlk s s.eng s.eng s.tbl s.inbox).trans (decide_eq_false (Nat.not_lt_of_le hdone))
  simp [hostRun, hostSend_status hc, hblk]

/-- A round with a block pending processes it. -/
theorem hostRun_of_pending (hkv : s.tbl.KV = true) (hhv : s.eng.HV = true) (hpending : s.eng.BP < s.eng.NB) (n : Nat) :
    hostRun s.cur (n + 1) s = hostRun s.cur n s.advanced := by
  have hblk : lastBlk s.polled = true :=
    (served_lastBlk s s.eng s.eng s.tbl s.inbox).trans (decide_eq_true hpending)
  have hok : lastStatus s.advanced = some Code.ok.byte :=
    served_lastStatus s (compressBlock s.tbl.K s.eng) [0x00#8 :: w2b [s.status]] .ok [] s.inbox
  simp [hostRun, hostSend_status hc, hblk, hostSend_compress hc hkv hhv hpending, hok]

end

/-- Settles O58, by induction on the bound of the rounds. -/
theorem runEndsWithNoBlockPending : Obligations.RunEndsWithNoBlockPending := by
  unfold Obligations.RunEndsWithNoBlockPending
  intro s n hc hkv hhv hle hn
  induction n generalizing s with
  | zero => omega
  | succ n ih =>
    by_cases hpending : s.eng.BP < s.eng.NB
    · have heng : s.advanced.eng = compressBlock s.tbl.K s.eng := served_eng hc ..
      have hnext := ih s.advanced (by simpa [State.advanced] using hc) hkv
      simp only [heng, compressBlock_HV, compressBlock_NB, compressBlock_BP, compressBlock_ERR] at hnext
      obtain ⟨t, hrun, hbp, hnb, herr, hout⟩ := hnext hhv hpending (by omega)
      refine ⟨t, (hostRun_of_pending hc hkv hhv hpending n).trans hrun, hbp, hnb, herr, ?_⟩
      rw [hout, advanced_responses]
      omega
    · refine ⟨s.polled, hostRun_of_done hc (Nat.le_of_not_lt hpending) n, ?_⟩
      have heng : s.polled.eng = s.eng := served_eng hc ..
      rw [heng]
      refine ⟨by omega, rfl, rfl, ?_⟩
      rw [polled_responses]
      omega

end Sys2Proof.Machine
end

section
/-! PROOFS. The host library's formats of a digest, and that its digests are the ones the machine returns
(45_host_sequences.md R173 to R181). -/

namespace Sys2Proof.Machine

/-! ### The hexadecimal form -/

/-- A digit is the entry of R176's list at its value. -/
theorem hexDigit_eq {n : Nat} (hn : n < 16) :
    ['0', '1', '2', '3', '4', '5', '6', '7', '8', '9', 'a', 'b', 'c', 'd', 'e', 'f'][n]? = some (hexDigit n) := by
  have hall : ∀ k : Fin 16, ['0', '1', '2', '3', '4', '5', '6', '7', '8', '9', 'a', 'b', 'c', 'd', 'e', 'f'][k.val]? =
      some (hexDigit k) := by decide
  exact hall ⟨n, hn⟩

theorem hex_cons (b : Byte) (d : List Byte) :
    hex (b :: d) = hexDigit (b.toNat / 16) :: hexDigit (b.toNat % 16) :: hex d := rfl

theorem hex_length (d : List Byte) : (hex d).length = 2 * d.length := by
  induction d with
  | nil => rfl
  | cons b d ih => rw [hex_cons, List.length_cons, List.length_cons, List.length_cons, ih, Nat.mul_succ]

/-- Byte `i` is characters `2i` and `2i + 1`. -/
theorem hex_getElem? {d : List Byte} {i : Nat} {b : Byte} (h : d[i]? = some b) :
    (hex d)[2 * i]? = some (hexDigit (b.toNat / 16)) ∧ (hex d)[2 * i + 1]? = some (hexDigit (b.toNat % 16)) := by
  induction d generalizing i with
  | nil => cases h
  | cons a d ih =>
    cases i with
    | zero =>
      obtain rfl : a = b := Option.some.inj h
      exact ⟨rfl, rfl⟩
    | succ i => exact ih h

/-- Settles O59: each byte is its two digits, in the order of the bytes. -/
theorem hexFormatOfTheDigest : Obligations.HexFormatOfTheDigest := by
  unfold Obligations.HexFormatOfTheDigest
  refine fun d => ⟨hex_length d, fun i b h => ?_, format_asBytes d false, format_default d⟩
  have hhigh : b.toNat / 16 < 16 := Nat.div_lt_of_lt_mul b.isLt
  have hlow : b.toNat % 16 < 16 := Nat.mod_lt _ (by decide)
  rw [hexDigit_eq hhigh, hexDigit_eq hlow]
  exact hex_getElem? h

/-! ### The text form -/

/-- The characters have the bytes as their codes (R178). -/
theorem bytesToString_codes (d : List Byte) : (bytesToString d).map Char.toNat = d.map BitVec.toNat := by
  rw [bytesToString, List.map_map]
  refine List.map_congr_left fun b _ => ?_
  have hvalid : b.toNat.isValidChar := .inl (b.isLt.trans (by decide))
  rw [Function.comp_apply, Char.toNat_ofNat, if_pos hvalid]

/-! ### The library's digests -/

theorem tobytes_of_message {τ : Type} {encoder : τ → List Byte} {m : Message τ} {msg : List Byte}
    (h : m = .bytes msg ∨ ∃ x, m = .text x ∧ encoder x = msg) : tobytes encoder m = some msg := by
  rcases h with rfl | ⟨x, rfl, rfl⟩
  · exact tobytes_bytes encoder msg
  · exact tobytes_text encoder x

/-- The last response to the DIGEST frames, on an engine with the printed table, is the library's digest. -/
theorem runsTo_libraryDigest {s : State} {e : Nat} {msg : List Byte} (he : e < s.engines.length)
    (htbl : (s.onEngine e []).tbl = { K := roundTable, KV := true })
    (hcap : ∀ cap, s.params.msgCap = some cap → msg.length ≤ cap) :
    ∃ t, RunsTo (blocksOf msg.length + 3) { s with inbox := (digestFrames msg).map (.frame e) } t ∧
      (t.sentBy e).getLast? = some (0x00#8 :: libraryDigestOf s.params.lenMode msg) := by
  have hkv : (s.onEngine e []).tbl.KV = true := by rw [htbl]
  obtain ⟨t, hrun, hsent, -⟩ := digestSequenceReturnsTheDigest s e msg [] he hkv hcap
  rw [List.append_nil] at hrun
  rw [htbl] at hsent
  exact ⟨t, hrun, by rw [hsent, List.getLast?_concat, libraryDigestOf]⟩

/-- The last response to the DIGEST2 frames, on such an engine, is the library's digest of the digest. -/
theorem runsTo_libraryDigest2 {s : State} {e : Nat} {msg : List Byte} (he : e < s.engines.length)
    (htbl : (s.onEngine e []).tbl = { K := roundTable, KV := true })
    (hcap : ∀ cap, s.params.msgCap = some cap → msg.length ≤ cap ∧ 32 ≤ cap) :
    ∃ t, RunsTo (blocksOf msg.length + 7)
        { s with inbox := (digest2Frames msg (libraryDigestOf s.params.lenMode msg)).map (.frame e) } t ∧
      (t.sentBy e).getLast? =
        some (0x00#8 :: libraryDigestOf s.params.lenMode (libraryDigestOf s.params.lenMode msg)) := by
  have hkv : (s.onEngine e []).tbl.KV = true := by rw [htbl]
  obtain ⟨t, hrun, hsent⟩ := doubleDigestIsTheDigestOfTheDigest s e msg (libraryDigestOf s.params.lenMode msg) he hkv hcap
    (by rw [htbl, libraryDigestOf])
  rw [htbl] at hsent
  exact ⟨t, hrun, hsent⟩

/-- Settles O60, with the library's digest and the library's digest of it as the 32 bytes. -/
theorem libraryDigestIsTheFormattedDigest : Obligations.LibraryDigestIsTheFormattedDigest := by
  unfold Obligations.LibraryDigestIsTheFormattedDigest
  refine ⟨fun d => ⟨format_asBytes d, ⟨_, rfl, bytesToString_codes d⟩, rfl, rfl⟩,
    fun τ encoder mode opts => ⟨rfl, rfl, fun m msg hm => ?_⟩⟩
  have hmsg := tobytes_of_message hm
  have hd1 : tobytes encoder (.bytes (libraryDigestOf mode msg)) = some (libraryDigestOf mode msg) := tobytes_bytes ..
  have hx2 := libraryDigest2_of_tobytes mode opts hmsg
  refine ⟨libraryDigestOf mode msg, libraryDigestOf mode (libraryDigestOf mode msg), libraryDigestOf_length ..,
    libraryDigestOf_length .., libraryDigest_of_tobytes mode _ hmsg, libraryDigest_of_tobytes mode opts hmsg, hx2,
    hx2.trans (libraryDigest_of_tobytes mode opts hd1).symm, ?_⟩
  rintro s e he rfl htbl hcap
  exact ⟨runsTo_libraryDigest he htbl hcap, fun hcap32 =>
    runsTo_libraryDigest2 he htbl fun cap h => ⟨hcap cap h, hcap32 cap h⟩⟩

end Sys2Proof.Machine
end

section
/-! PROOFS. The exceptions (60_exceptions.md R190, R198, R203 to R221): which code a frame is answered with, what a rejection
leaves alone, and the steps that execute no command. -/

namespace Sys2Proof.Machine

/-! ### The code reported -/

/-- Test 2 of 60_exceptions.md R198. -/
theorem effect_pad_code (msg : List Byte) (p : Params) (v : Engine) (b : Table) :
    (effect (.pad msg) p v b).code = if msgFits p msg.length then .ok else .invalidArgument := by
  rw [effect]
  split <;> rfl

/-- Tests 3 to 5 of 60_exceptions.md R198, in their order. -/
theorem effect_compress_code (p : Params) (v : Engine) (b : Table) :
    (effect .compress p v b).code =
      if b.KV = false then .notReady
      else if v.HV = false then .notReady
      else if v.BP < v.NB then .ok
      else .sequence := by
  rw [effect]
  cases b.KV with
  | false => rfl
  | true =>
    cases v.HV with
    | false => rfl
    | true => by_cases hblk : v.BP < v.NB <;> simp [hblk, Effect.rejection]

theorem effect_unpack_code (p : Params) (v : Engine) (b : Table) :
    (effect .unpack p v b).code = if v.HV = false then .notReady else .ok := by
  rw [effect]
  cases v.HV <;> rfl

/-- Settles O11: the code of the effect that the frame has on its engine, by the command. -/
theorem firstFailingTestDecidesTheCode : Obligations.FirstFailingTestDecidesTheCode := by
  unfold Obligations.FirstFailingTestDecidesTheCode
  intro s e f rest hin he
  refine ⟨_, (s.effectOn e f).code, (s.effectOn e f).payload, step_eq_take hin he, rfl, ?_⟩
  rw [State.effectOn, frameEffect]
  cases decode f with
  | invalid why => rfl
  | command i =>
    cases i with
    | pad msg =>
      rw [effect_pad_code, msgFits]
      cases s.params.msgCap with
      | none => rfl
      | some cap => simp only [decide_eq_true_eq]
    | compress => exact effect_compress_code _ _ _
    | unpack => exact effect_unpack_code _ _ _
    | kgen | hinit | status | reset => rfl

/-! ### What a rejection leaves alone -/

/-- An effect with a code other than OK is a rejection with that code, and nothing else. -/
theorem effect_eq_rejection {i : Instr} {p : Params} {v : Engine} {b : Table} (hc : (effect i p v b).code ≠ .ok) :
    effect i p v b = .rejection v b (effect i p v b).code := by
  cases i with
  | kgen | hinit | status | reset => exact absurd rfl hc
  | pad | unpack =>
    simp only [effect] at hc ⊢
    split_ifs at hc ⊢
    · exact absurd rfl hc
    · rfl
  | compress =>
    simp only [effect] at hc ⊢
    split_ifs at hc ⊢
    · exact absurd rfl hc
    · rfl
    · rfl

theorem frameEffect_eq_rejection {f : Frame} {p : Params} {v : Engine} {b : Table}
    (hc : (frameEffect f p v b).code ≠ .ok) :
    frameEffect f p v b = .rejection v b (frameEffect f p v b).code := by
  unfold frameEffect at hc ⊢
  cases hd : decode f with
  | command i =>
    rw [hd] at hc
    exact effect_eq_rejection hc
  | invalid why => rfl

/-- A frame whose effect has a code other than OK is rejected with that code. -/
theorem take_eq_reject {s : State} {e : Nat} {f : Frame} (hc : (s.effectOn e f).code ≠ .ok) (rest : List Input) :
    s.take e f rest = (s.onEngine e rest).reject (s.effectOn e f).code := by
  have heff : s.effectOn e f =
      .rejection (s.onEngine e rest).eng (s.onEngine e rest).tbl (s.effectOn e f).code := frameEffect_eq_rejection hc
  rw [State.take, ← perform_rejection, ← heff]

/-- The response to a frame names the code of its effect. -/
theorem take_code_of_outbox {s : State} {e : Nat} {f : Frame} {rest : List Input} {c : Code} {payload : List Byte}
    (hout : (s.take e f rest).outbox = s.outbox ++ [{ engine := e, bytes := c.byte :: payload }]) :
    (s.effectOn e f).code = c := by
  simp only [State.take, perform_outbox, onEngine_outbox, onEngine_cur, List.append_cancel_left_eq, List.cons.injEq,
    Response.mk.injEq] at hout
  exact Code.byte_injective hout.1.2.1

/-- Settles O12: the step is `reject` with the code of the response. -/
theorem rejectionChangesOnlyErrAndEcode : Obligations.RejectionChangesOnlyErrAndEcode := by
  unfold Obligations.RejectionChangesOnlyErrAndEcode
  intro s t e f rest c payload hin he hst hout hc
  cases (step_eq_take hin he).symm.trans hst
  obtain rfl := take_code_of_outbox hout
  rw [take_eq_reject hc]
  exact reject_rejectedWith _ _ he

/-! ### What a command leaves alone -/

/-- Settles O15, by the ways a command can end. -/
theorem commandTouchesOnlyItsOwnEngine : Obligations.CommandTouchesOnlyItsOwnEngine :=
  fun _ _ _ hx => (Executes.of_exec hx).othersKept

/-! ### Steps that execute no command -/

/-- Settles O7: there is no entry to take. -/
theorem idleMachineHoldsItsState : Obligations.IdleMachineHoldsItsState := by
  unfold Obligations.IdleMachineHoldsItsState
  intro s hin
  rw [step, takeInput, hin]

/-- Settles O8: the test for the engine fails. -/
theorem frameForAnAbsentEngineFaults : Obligations.FrameForAnAbsentEngineFaults := by
  unfold Obligations.FrameForAnAbsentEngineFaults
  intro s e f rest hin he
  rw [step, takeInput, hin]
  exact if_neg (Nat.not_lt_of_le he)

/-- Settles O9: `resetAll` and `resetWith` build the same tables and engines. -/
theorem resetInputResetsTheWholeSystem : Obligations.ResetInputResetsTheWholeSystem := by
  unfold Obligations.ResetInputResetsTheWholeSystem
  intro s abandoned rest hin
  rw [step, takeInput, hin]
  rfl

end Sys2Proof.Machine
end
